-- ==== Sys2Proof/Word.lean ====
section
/-! DEFINITION. The machine word (16 bits: 00_scope.md R13) and the host's character byte. -/

namespace Sys2Proof

/-- A word: "a 16-bit unit of storage/addressing" (00_scope.md R14, R21). Arithmetic on it wraps. -/
abbrev Word := BitVec 16

/-- A byte of the host interface (00_scope.md R12). No byte of memory is addressable (20_memory.md R83). -/
abbrev Byte := BitVec 8

end Sys2Proof
end

