-- ==== Sys2Proof/Syntax.lean ====
section
/-! DEFINITION. The instructions: one constructor for each row of spec/opcode_table.json. -/

namespace Sys2Proof

/-- The eight general registers R0 to R7 (10_state.md R40). -/
inductive Reg where
  | r0 | r1 | r2 | r3 | r4 | r5 | r6 | r7
  deriving DecidableEq, Repr

/-- An instruction, with every bit of its word that is not fixed by its row. The arguments named
`unread…` are the bits the decoder does not read (30_encoding.md R131): they are kept so that the
word of an instruction can be recorded by a fault (60_exceptions.md R351); no meaning reads them
for anything else. -/
inductive Instr where
  /-- BR: nzp = ir[11:9], PCoffset9 (41_control.md R200). -/
  | br (nzp : BitVec 3) (offset : BitVec 9)
  /-- ADD, register mode: DR, SR1, SR2, ir[4:3] (40_operate.md R160). -/
  | addReg (dr sr1 sr2 : Reg) (unread : BitVec 2)
  /-- ADD, immediate mode: DR, SR1, imm5 (40_operate.md R161). -/
  | addImm (dr sr1 : Reg) (imm : BitVec 5)
  /-- LD: DR, PCoffset9 (42_load_store.md R240). -/
  | ld (dr : Reg) (offset : BitVec 9)
  /-- ST: SR, PCoffset9 (42_load_store.md R244). -/
  | st (sr : Reg) (offset : BitVec 9)
  /-- JSRR: BaseR, ir[10:9], ir[5:0] (41_control.md R204). -/
  | jsrr (base : Reg) (unreadHigh : BitVec 2) (unreadLow : BitVec 6)
  /-- JSR: PCoffset11 (41_control.md R203). -/
  | jsr (offset : BitVec 11)
  /-- AND, register mode: DR, SR1, SR2, ir[4:3] (40_operate.md R163). -/
  | andReg (dr sr1 sr2 : Reg) (unread : BitVec 2)
  /-- AND, immediate mode: DR, SR1, imm5 (40_operate.md R164). -/
  | andImm (dr sr1 : Reg) (imm : BitVec 5)
  /-- LDR: DR, BaseR, offset6 (42_load_store.md R242). -/
  | ldr (dr base : Reg) (offset : BitVec 6)
  /-- STR: SR, BaseR, offset6 (42_load_store.md R246). -/
  | str (sr base : Reg) (offset : BitVec 6)
  /-- RTI, illegal: ir[11:0] (44_illegal.md R331). -/
  | rti (unread : BitVec 12)
  /-- NOT: DR, SR, ir[5:0] (40_operate.md R166). -/
  | notReg (dr sr : Reg) (unread : BitVec 6)
  /-- LDI: DR, PCoffset9 (42_load_store.md R241). -/
  | ldi (dr : Reg) (offset : BitVec 9)
  /-- STI: SR, PCoffset9 (42_load_store.md R245). -/
  | sti (sr : Reg) (offset : BitVec 9)
  /-- JMP, and RET when BaseR is R7: BaseR, ir[11:9], ir[5:0] (41_control.md R201, R202). -/
  | jmp (base : Reg) (unreadHigh : BitVec 3) (unreadLow : BitVec 6)
  /-- RES, illegal: ir[11:0] (44_illegal.md R330). -/
  | res (unread : BitVec 12)
  /-- LEA: DR, PCoffset9 (42_load_store.md R243). -/
  | lea (dr : Reg) (offset : BitVec 9)
  /-- TRAP x20, GETC: ir[11:8] (43_trap.md R283). -/
  | trapGetc (unread : BitVec 4)
  /-- TRAP x21, OUT: ir[11:8] (43_trap.md R284). -/
  | trapOut (unread : BitVec 4)
  /-- TRAP x22, PUTS: ir[11:8] (43_trap.md R285). -/
  | trapPuts (unread : BitVec 4)
  /-- TRAP x23, IN: ir[11:8] (43_trap.md R286). -/
  | trapIn (unread : BitVec 4)
  /-- TRAP x24, PUTSP: ir[11:8] (43_trap.md R287). -/
  | trapPutsp (unread : BitVec 4)
  /-- TRAP x25, HALT: ir[11:8] (43_trap.md R290). -/
  | trapHalt (unread : BitVec 4)
  /-- TRAP with any other vector: ir[11:8], the vector (43_trap.md R291). -/
  | trapUnknown (unread : BitVec 4) (vector : BitVec 8)
  deriving DecidableEq, Repr

end Sys2Proof
end

