-- ==== Sys2Proof/WellFormed.lean ====
section
/-! DEFINITION. Which terms of Instr stand for a word: all but a `trapUnknown` whose vector is one of
the six services (30_encoding.md R134, R135: "Within a legal opcode, no field value is illegal"). -/

namespace Sys2Proof

/-- The vectors of the six trap services, 0x20 to 0x25 (43_trap.md R280). -/
def isServiceVector (vector : BitVec 8) : Bool :=
  decide (0x20 ≤ vector.toNat ∧ vector.toNat ≤ 0x25)

/-- Every operand of every other row admits each value of its field; the row of the unknown vectors
excludes the words of the six service rows (30_encoding.md R134). -/
def Instr.wellFormed : Instr → Bool
  | .br _ _ => true
  | .addReg _ _ _ _ => true
  | .addImm _ _ _ => true
  | .ld _ _ => true
  | .st _ _ => true
  | .jsrr _ _ _ => true
  | .jsr _ => true
  | .andReg _ _ _ _ => true
  | .andImm _ _ _ => true
  | .ldr _ _ _ => true
  | .str _ _ _ => true
  | .rti _ => true
  | .notReg _ _ _ => true
  | .ldi _ _ => true
  | .sti _ _ => true
  | .jmp _ _ _ => true
  | .res _ => true
  | .lea _ _ => true
  | .trapGetc _ => true
  | .trapOut _ => true
  | .trapPuts _ => true
  | .trapIn _ => true
  | .trapPutsp _ => true
  | .trapHalt _ => true
  | .trapUnknown _ vector => !isServiceVector vector

end Sys2Proof
end

