-- ==== Sys2Proof/Decode.lean ====
section
/-! DEFINITION. The decoder, total on all words (30_encoding.md R134: there is no word to reject), the
encoder written from the same format tables (R132), and the opcode table itself. The field positions
are 30_encoding.md R122 to R130. -/

namespace Sys2Proof

/-- The sixteen values of ir[15:12] (30_encoding.md R121). JSR and JSRR share one. -/
inductive Opcode where
  | br | add | ld | st | jsr | and | ldr | str | rti | not | ldi | sti | jmp | res | lea | trap
  deriving DecidableEq, Repr

/-- The opcode numbers of 30_encoding.md R121. -/
def Opcode.bits : Opcode → BitVec 4
  | .br => 0b0000
  | .add => 0b0001
  | .ld => 0b0010
  | .st => 0b0011
  | .jsr => 0b0100
  | .and => 0b0101
  | .ldr => 0b0110
  | .str => 0b0111
  | .rti => 0b1000
  | .not => 0b1001
  | .ldi => 0b1010
  | .sti => 0b1011
  | .jmp => 0b1100
  | .res => 0b1101
  | .lea => 0b1110
  | .trap => 0b1111

/-- The opcode a nibble selects: every one of the 16 values selects one (10_state.md R61). -/
def opcodeOfBits (b : BitVec 4) : Opcode :=
  match b.toNat with
  | 0 => .br
  | 1 => .add
  | 2 => .ld
  | 3 => .st
  | 4 => .jsr
  | 5 => .and
  | 6 => .ldr
  | 7 => .str
  | 8 => .rti
  | 9 => .not
  | 10 => .ldi
  | 11 => .sti
  | 12 => .jmp
  | 13 => .res
  | 14 => .lea
  | _ => .trap

/-- The number of a register in a 3-bit field (30_encoding.md R122, R123). -/
def Reg.bits : Reg → BitVec 3
  | .r0 => 0
  | .r1 => 1
  | .r2 => 2
  | .r3 => 3
  | .r4 => 4
  | .r5 => 5
  | .r6 => 6
  | .r7 => 7

/-- The register a 3-bit field names. -/
def regOfBits (b : BitVec 3) : Reg :=
  match b.toNat with
  | 0 => .r0
  | 1 => .r1
  | 2 => .r2
  | 3 => .r3
  | 4 => .r4
  | 5 => .r5
  | 6 => .r6
  | _ => .r7

/-- The field of `len` bits of a word whose lowest bit is bit `low` (00_scope.md R14). -/
def bitField (w : Word) (low len : Nat) : BitVec len := w.extractLsb' low len

/-- ir[15:12] (30_encoding.md R121). -/
def opcodeOf (w : Word) : Opcode := opcodeOfBits (bitField w 12 4)

/-- DR or SR, ir[11:9] (30_encoding.md R122). -/
def fieldDr (w : Word) : Reg := regOfBits (bitField w 9 3)

/-- SR1, SR or BaseR, ir[8:6] (30_encoding.md R123). -/
def fieldSr1 (w : Word) : Reg := regOfBits (bitField w 6 3)

/-- SR2, ir[2:0] (30_encoding.md R124). -/
def fieldSr2 (w : Word) : Reg := regOfBits (bitField w 0 3)

/-- The trap dispatcher's choice by trapvect8 = ir[7:0] (43_trap.md R280; 30_encoding.md R130). -/
def decodeTrap (unread : BitVec 4) (vector : BitVec 8) : Instr :=
  match vector.toNat with
  | 0x20 => .trapGetc unread
  | 0x21 => .trapOut unread
  | 0x22 => .trapPuts unread
  | 0x23 => .trapIn unread
  | 0x24 => .trapPutsp unread
  | 0x25 => .trapHalt unread
  | _ => .trapUnknown unread vector

/-- The decoder (30_encoding.md R132, R134). -/
def decode (w : Word) : Instr :=
  match opcodeOf w with
  | .br => .br (bitField w 9 3) (bitField w 0 9)
  | .add =>
    if w.getLsbD 5 then .addImm (fieldDr w) (fieldSr1 w) (bitField w 0 5)
    else .addReg (fieldDr w) (fieldSr1 w) (fieldSr2 w) (bitField w 3 2)
  | .ld => .ld (fieldDr w) (bitField w 0 9)
  | .st => .st (fieldDr w) (bitField w 0 9)
  | .jsr =>
    if w.getLsbD 11 then .jsr (bitField w 0 11)
    else .jsrr (fieldSr1 w) (bitField w 9 2) (bitField w 0 6)
  | .and =>
    if w.getLsbD 5 then .andImm (fieldDr w) (fieldSr1 w) (bitField w 0 5)
    else .andReg (fieldDr w) (fieldSr1 w) (fieldSr2 w) (bitField w 3 2)
  | .ldr => .ldr (fieldDr w) (fieldSr1 w) (bitField w 0 6)
  | .str => .str (fieldDr w) (fieldSr1 w) (bitField w 0 6)
  | .rti => .rti (bitField w 0 12)
  | .not => .notReg (fieldDr w) (fieldSr1 w) (bitField w 0 6)
  | .ldi => .ldi (fieldDr w) (bitField w 0 9)
  | .sti => .sti (fieldDr w) (bitField w 0 9)
  | .jmp => .jmp (fieldSr1 w) (bitField w 9 3) (bitField w 0 6)
  | .res => .res (bitField w 0 12)
  | .lea => .lea (fieldDr w) (bitField w 0 9)
  | .trap => decodeTrap (bitField w 8 4) (bitField w 0 8)

/-- A word of the PC9 format: opcode, DR or SR, PCoffset9 (30_encoding.md R132). -/
def encodePc9 (op : Opcode) (r : Reg) (offset : BitVec 9) : Word :=
  op.bits ++ r.bits ++ offset

/-- A word of the BASE6 format: opcode, DR or SR, BaseR, offset6 (30_encoding.md R132). -/
def encodeBase6 (op : Opcode) (r base : Reg) (offset : BitVec 6) : Word :=
  op.bits ++ r.bits ++ base.bits ++ offset

/-- A word of the OPR format: opcode, DR, SR1, 0, xx, SR2 (30_encoding.md R132). -/
def encodeOpr (op : Opcode) (dr sr1 sr2 : Reg) (unread : BitVec 2) : Word :=
  op.bits ++ dr.bits ++ sr1.bits ++ 0#1 ++ unread ++ sr2.bits

/-- A word of the OPI format: opcode, DR, SR1, 1, imm5 (30_encoding.md R132). -/
def encodeOpi (op : Opcode) (dr sr1 : Reg) (imm : BitVec 5) : Word :=
  op.bits ++ dr.bits ++ sr1.bits ++ 1#1 ++ imm

/-- A word of the NONE format (30_encoding.md R132). -/
def encodeNone (op : Opcode) (unread : BitVec 12) : Word := op.bits ++ unread

/-- A word of the TRAP format: opcode, xxxx, trapvect8 (30_encoding.md R132). -/
def encodeTrap (unread : BitVec 4) (vector : BitVec 8) : Word :=
  Opcode.trap.bits ++ unread ++ vector

/-- The word of an instruction (30_encoding.md R132). -/
def encode : Instr → Word
  | .br nzp offset => Opcode.br.bits ++ nzp ++ offset
  | .addReg dr sr1 sr2 unread => encodeOpr .add dr sr1 sr2 unread
  | .addImm dr sr1 imm => encodeOpi .add dr sr1 imm
  | .ld dr offset => encodePc9 .ld dr offset
  | .st sr offset => encodePc9 .st sr offset
  | .jsrr base unreadHigh unreadLow =>
    Opcode.jsr.bits ++ 0#1 ++ unreadHigh ++ base.bits ++ unreadLow
  | .jsr offset => Opcode.jsr.bits ++ 1#1 ++ offset
  | .andReg dr sr1 sr2 unread => encodeOpr .and dr sr1 sr2 unread
  | .andImm dr sr1 imm => encodeOpi .and dr sr1 imm
  | .ldr dr base offset => encodeBase6 .ldr dr base offset
  | .str sr base offset => encodeBase6 .str sr base offset
  | .rti unread => encodeNone .rti unread
  | .notReg dr sr unread => encodeBase6 .not dr sr unread
  | .ldi dr offset => encodePc9 .ldi dr offset
  | .sti sr offset => encodePc9 .sti sr offset
  | .jmp base unreadHigh unreadLow => Opcode.jmp.bits ++ unreadHigh ++ base.bits ++ unreadLow
  | .res unread => encodeNone .res unread
  | .lea dr offset => encodePc9 .lea dr offset
  | .trapGetc unread => encodeTrap unread 0x20
  | .trapOut unread => encodeTrap unread 0x21
  | .trapPuts unread => encodeTrap unread 0x22
  | .trapIn unread => encodeTrap unread 0x23
  | .trapPutsp unread => encodeTrap unread 0x24
  | .trapHalt unread => encodeTrap unread 0x25
  | .trapUnknown unread vector => encodeTrap unread vector

/-- A row of the opcode table: its mnemonic as spec/opcode_table.json writes it, its match and mask, and
whether it excludes the words of the six service rows (30_encoding.md R134). -/
structure TableRow where
  mnemonic : String
  bits : Word
  mask : Word
  otherVectorsOnly : Bool
  deriving DecidableEq, Repr

/-- "A row selects ir when (ir & mask) = match"; the row of the other vectors selects the words of
opcode 1111 that no service row selects (30_encoding.md R134). -/
def TableRow.selects (row : TableRow) (w : Word) : Bool :=
  (w &&& row.mask == row.bits) && !(row.otherVectorsOnly && isServiceVector (bitField w 0 8))

/-- The row an instruction belongs to: the table of 30_encoding.md R134. -/
def Instr.row : Instr → TableRow
  | .br _ _ => ⟨"BR", 0x0000, 0xF000, false⟩
  | .addReg _ _ _ _ => ⟨"ADD", 0x1000, 0xF020, false⟩
  | .addImm _ _ _ => ⟨"ADD", 0x1020, 0xF020, false⟩
  | .ld _ _ => ⟨"LD", 0x2000, 0xF000, false⟩
  | .st _ _ => ⟨"ST", 0x3000, 0xF000, false⟩
  | .jsrr _ _ _ => ⟨"JSRR", 0x4000, 0xF800, false⟩
  | .jsr _ => ⟨"JSR", 0x4800, 0xF800, false⟩
  | .andReg _ _ _ _ => ⟨"AND", 0x5000, 0xF020, false⟩
  | .andImm _ _ _ => ⟨"AND", 0x5020, 0xF020, false⟩
  | .ldr _ _ _ => ⟨"LDR", 0x6000, 0xF000, false⟩
  | .str _ _ _ => ⟨"STR", 0x7000, 0xF000, false⟩
  | .rti _ => ⟨"RTI", 0x8000, 0xF000, false⟩
  | .notReg _ _ _ => ⟨"NOT", 0x9000, 0xF000, false⟩
  | .ldi _ _ => ⟨"LDI", 0xA000, 0xF000, false⟩
  | .sti _ _ => ⟨"STI", 0xB000, 0xF000, false⟩
  | .jmp _ _ _ => ⟨"JMP", 0xC000, 0xF000, false⟩
  | .res _ => ⟨"RES", 0xD000, 0xF000, false⟩
  | .lea _ _ => ⟨"LEA", 0xE000, 0xF000, false⟩
  | .trapGetc _ => ⟨"TRAP_GETC", 0xF020, 0xF0FF, false⟩
  | .trapOut _ => ⟨"TRAP_OUT", 0xF021, 0xF0FF, false⟩
  | .trapPuts _ => ⟨"TRAP_PUTS", 0xF022, 0xF0FF, false⟩
  | .trapIn _ => ⟨"TRAP_IN", 0xF023, 0xF0FF, false⟩
  | .trapPutsp _ => ⟨"TRAP_PUTSP", 0xF024, 0xF0FF, false⟩
  | .trapHalt _ => ⟨"TRAP_HALT", 0xF025, 0xF0FF, false⟩
  | .trapUnknown _ _ => ⟨"TRAP__unknown_vector", 0xF000, 0xF000, true⟩

/-- The 25 rows of the opcode table, in the order of 30_encoding.md R134. -/
def opcodeTable : List TableRow :=
  [ ⟨"BR", 0x0000, 0xF000, false⟩, ⟨"ADD", 0x1000, 0xF020, false⟩, ⟨"ADD", 0x1020, 0xF020, false⟩,
    ⟨"LD", 0x2000, 0xF000, false⟩, ⟨"ST", 0x3000, 0xF000, false⟩, ⟨"JSRR", 0x4000, 0xF800, false⟩,
    ⟨"JSR", 0x4800, 0xF800, false⟩, ⟨"AND", 0x5000, 0xF020, false⟩, ⟨"AND", 0x5020, 0xF020, false⟩,
    ⟨"LDR", 0x6000, 0xF000, false⟩, ⟨"STR", 0x7000, 0xF000, false⟩, ⟨"RTI", 0x8000, 0xF000, false⟩,
    ⟨"NOT", 0x9000, 0xF000, false⟩, ⟨"LDI", 0xA000, 0xF000, false⟩, ⟨"STI", 0xB000, 0xF000, false⟩,
    ⟨"JMP", 0xC000, 0xF000, false⟩, ⟨"RES", 0xD000, 0xF000, false⟩, ⟨"LEA", 0xE000, 0xF000, false⟩,
    ⟨"TRAP_GETC", 0xF020, 0xF0FF, false⟩, ⟨"TRAP_OUT", 0xF021, 0xF0FF, false⟩,
    ⟨"TRAP_PUTS", 0xF022, 0xF0FF, false⟩, ⟨"TRAP_IN", 0xF023, 0xF0FF, false⟩,
    ⟨"TRAP_PUTSP", 0xF024, 0xF0FF, false⟩, ⟨"TRAP_HALT", 0xF025, 0xF0FF, false⟩,
    ⟨"TRAP__unknown_vector", 0xF000, 0xF000, true⟩ ]

/-- The host's question: the instruction the decoder reads from `nbits` bits whose value is `w`. Every
instruction is one word (30_encoding.md R120), so more than 16 bits are no instruction; the bits of
the word above `nbits` are 0. -/
def decodeTableWord (nbits w : Nat) : Option Instr :=
  if nbits ≤ 16 then some (decode ((BitVec.ofNat nbits w).setWidth 16)) else none

end Sys2Proof
end

