-- ==== Sys2Proof/Config.lean ====
section
/-! DEFINITION. What is fixed for the machine (the parameters of 00_scope.md R13), and the spec's OPEN
parameters as constants without a body: nothing can be proved about their values, so that a claim
holds for every value of them. -/

namespace Sys2Proof

/-- The two values of the OPEN parameter P_EOF: what a read does when the host input has ended
(43_trap.md R292). -/
inductive EndOfInput where
  /-- A poll finds nothing and a read never returns. -/
  | hold
  /-- A poll finds input and a read yields the word 0xFFFF. -/
  | deliver
  deriving DecidableEq, Repr, Inhabited

/-- PC_RESET (00_scope.md R13; 10_state.md R47). -/
def Config.pcReset : Word := 0x3000

/-- KBSR_ADDR, the keyboard-status address (20_memory.md R88; UNVERIFIED in the spec's source, log 4). -/
def Config.kbsrAddr : Word := 0xFE00

/-- KBDR_ADDR, the keyboard-data address (20_memory.md R88; UNVERIFIED in the spec's source, log 4). -/
def Config.kbdrAddr : Word := 0xFE02

/-- KB_READY, "ready" bit 15 (00_scope.md R13; 20_memory.md R89). -/
def Config.kbReady : Word := 0x8000

/-- MEM_WORDS (00_scope.md R13): how many words the address space has. -/
def Config.memWords : Nat := 65536

/-- What a word of memory that is not listed reads as. DESIGN CHOICE, unsafe (log 2): MEM_INIT is an
OPEN parameter (70_reset_and_hazards.md R404), and 0x0000 is the reference implementation's value.
Any other MEM_INIT is a memory that lists its words. -/
def Config.unlistedWord : Word := 0x0000

/-- What x[0] to x[7] hold at reset. PRESUMED, unsafe (log 1): the reference implementation's value,
the spec's switch GPR_ZERO_INIT = true (10_state.md R43; 70_reset_and_hazards.md R401). -/
def Config.gprReset : Word := 0x0000

/-- P_EOF, OPEN (43_trap.md R292). A free value (log 10). -/
opaque Config.endOfInput : EndOfInput

/-- The answers of a host whose input never ends, numbered: a byte, or none where no byte is there yet
(92_eei_decisions.md D11). A free value (log 6). -/
opaque Config.hostAnswer : Nat → Option Byte

/-- IN_PROMPT, OPEN: the bytes IN writes before it reads (43_trap.md R286). A free value (log 11). -/
opaque Config.inPrompt : List Byte

/-- HALT_NOTICE, OPEN: the bytes HALT writes (43_trap.md R290). A free value (log 11). -/
opaque Config.haltNotice : List Byte

end Sys2Proof
end

