-- ==== Sys2Proof/Machine/State.lean ====
section
/-! DEFINITION. The machine's state as plain data: the tuple (x[0..7], pc, cond, mem, run, fault) of
10_state.md R39, and the model's own record of the host side of the interface (00_scope.md R12). -/

namespace Sys2Proof.Machine

/-- The condition register: exactly one of N, Z, P (10_state.md R49, R54). -/
inductive Cond where
  | n | z | p
  deriving DecidableEq, Repr

/-- Why a run ended (10_state.md R56). -/
inductive HaltReason where
  /-- TRAP HALT, graceful (43_trap.md R290). -/
  | halt
  /-- RTI or RES, a fault (44_illegal.md R330, R331). -/
  | illegalOpcode
  /-- TRAP with an unknown vector, a fault (43_trap.md R291). -/
  | unknownTrap
  /-- The host's external interrupt, a controlled shutdown (60_exceptions.md R356). -/
  | externalInterrupt
  deriving DecidableEq, Repr

/-- The run state (10_state.md R56). -/
inductive RunState where
  | running
  | halted (reason : HaltReason)
  deriving DecidableEq, Repr

/-- The two synchronous faults of the CORE (60_exceptions.md R350). -/
inductive FaultCause where
  | illegalOpcode
  | unknownTrap
  deriving DecidableEq, Repr

/-- The fault record: cause, instruction word, instruction address (10_state.md R58). -/
structure FaultRecord where
  cause : FaultCause
  word : Word
  address : Word
  deriving DecidableEq, Repr

/-- One answer of the host to a request for a byte. DESIGN CHOICE (log 6): what the host will do is
held as a list of its answers. -/
inductive InputEvent where
  /-- The next byte of the host input is there and is taken. -/
  | byte (c : Byte)
  /-- No byte is there yet: a poll finds nothing, a blocking read holds. -/
  | notYet
  deriving DecidableEq, Repr

/-- What the host answers once the listed answers are used up. DESIGN CHOICE (log 6). -/
inductive InputTail where
  /-- No further byte comes, and the input has not ended. -/
  | quiet
  /-- The host input has ended: the OPEN parameter P_EOF says what a request gives (43_trap.md R292). -/
  | ended
  /-- These answers, `first` and then `rest`, over and over: an input that never ends. -/
  | repeats (first : InputEvent) (rest : List InputEvent)
  /-- An input that never ends, of answers nothing is known about: the next one is number `next` of
  `Config.hostAnswer`. -/
  | free (next : Nat)
  deriving DecidableEq, Repr

/-- One host-output event (20_memory.md R97): a byte, or a flush, which carries no data (43_trap.md R289). -/
inductive OutputEvent where
  | byte (b : Byte)
  | flush
  deriving DecidableEq, Repr

/-- A service that a step could not finish. DESIGN CHOICE (log 7, 9): the spec's hold in HostRead
(00_scope.md R10) and its endless string output (70_reset_and_hazards.md R423) as plain data. -/
inductive Pending where
  /-- GETC holds in HostRead (43_trap.md R283). -/
  | getc
  /-- IN holds in HostRead, its prompt written (43_trap.md R286). -/
  | inRead
  /-- PUTS goes on at the string word at this address (43_trap.md R285, R288). -/
  | puts (address : Word)
  /-- PUTSP goes on at the string word at this address (43_trap.md R287, R288). -/
  | putsp (address : Word)
  deriving DecidableEq, Repr

/-- The general registers x[0] to x[7] (10_state.md R40). -/
structure RegFile where
  x0 : Word
  x1 : Word
  x2 : Word
  x3 : Word
  x4 : Word
  x5 : Word
  x6 : Word
  x7 : Word
  deriving DecidableEq, Repr

/-- The memory array (20_memory.md R80) as the list of its (word address, word) pairs that differ from
what an unlisted word reads as. The smallest addressable unit is the word (R81, R83), so the cells are
words (DESIGN CHOICE, safe, log 3). -/
abbrev Memory := List (Nat × Word)

/-- The state of the machine. `regs` to `fault` are the spec's own (10_state.md R39); `input` to
`pending` are the model's own. -/
structure State where
  /-- x[0] to x[7] (10_state.md R40). -/
  regs : RegFile
  /-- The program counter, a word address (10_state.md R44). -/
  pc : Word
  /-- The condition register (10_state.md R49). -/
  cond : Cond
  /-- The memory array (20_memory.md R80). -/
  mem : Memory
  /-- The run state (10_state.md R56). -/
  run : RunState
  /-- The fault record, empty before any fault (10_state.md R58). -/
  fault : Option FaultRecord
  /-- The host's coming answers to requests for a byte, next one first (log 6). -/
  input : List InputEvent
  /-- What the host answers once `input` is used up (log 6). -/
  inputTail : InputTail
  /-- The host-output events so far, oldest first (20_memory.md R97, log 12). -/
  output : List OutputEvent
  /-- After how many more stop points the external interrupt takes effect; none: never
  (60_exceptions.md R357, R358, log 8). -/
  interruptIn : Option Nat
  /-- The service in progress, if a step left one unfinished (log 7, 9). -/
  pending : Option Pending
  deriving DecidableEq, Repr

/-- The reasons for which the model itself stops with a fault: there is none. The CORE's own two faults
are TAKEN: they are next states with `run` and `fault` written (60_exceptions.md R351). No address, no
register read and no operand faults (60_exceptions.md R350). -/
inductive Fault where
  deriving DecidableEq, Repr

/-- The reasons for which the model refuses an instruction. -/
inductive Refusal where
  /-- Raised by an arm of `exec` whose instruction has no meaning yet; no arm raises it. Safe: the
  machine stops where the hardware goes on. -/
  | notModelled (mnemonic : String)
  deriving DecidableEq, Repr

/-- The machine right after reset with the memory `m` (70_reset_and_hazards.md R400, R401): pc 0x3000,
cond Z, RUNNING, no fault. The registers' 0x0000 is PRESUMED (log 1); the host's side (no input to come,
none ended, nothing written, no interrupt, nothing pending) is a DESIGN CHOICE (log 6, 7, 8, 12). -/
def State.resetWith (m : Memory) : State where
  regs := ⟨Config.gprReset, Config.gprReset, Config.gprReset, Config.gprReset,
    Config.gprReset, Config.gprReset, Config.gprReset, Config.gprReset⟩
  pc := Config.pcReset
  cond := .z
  mem := m
  run := .running
  fault := none
  input := []
  inputTail := .quiet
  output := []
  interruptIn := none
  pending := none

/-- The machine right after reset with no image loaded: no word of memory is listed (log 2). -/
def State.reset : State := State.resetWith []

end Sys2Proof.Machine
end

