-- ==== Sys2Proof/Machine/Ops.lean ====
section
/-! DEFINITION. The named operations over registers, memory, the I/O bridge, the host interface, the
external interrupt and fault entry. Every meaning is written over these. -/

namespace Sys2Proof.Machine

/-! ### Registers (10_state.md R40) -/

/-- The value of a register in the file. -/
def RegFile.get (f : RegFile) : Reg → Word
  | .r0 => f.x0
  | .r1 => f.x1
  | .r2 => f.x2
  | .r3 => f.x3
  | .r4 => f.x4
  | .r5 => f.x5
  | .r6 => f.x6
  | .r7 => f.x7

/-- The file with one register written. No register is hardwired and none aliases another (R40). -/
def RegFile.set (f : RegFile) (r : Reg) (v : Word) : RegFile :=
  match r with
  | .r0 => { f with x0 := v }
  | .r1 => { f with x1 := v }
  | .r2 => { f with x2 := v }
  | .r3 => { f with x3 := v }
  | .r4 => { f with x4 := v }
  | .r5 => { f with x5 := v }
  | .r6 => { f with x6 := v }
  | .r7 => { f with x7 := v }

/-- `x[r]` (00_scope.md R18). -/
def readReg (s : State) (r : Reg) : Word := s.regs.get r

/-- `x[r] <- v` (00_scope.md R18). -/
def writeReg (s : State) (r : Reg) (v : Word) : State := { s with regs := s.regs.set r v }

/-- `pc <- target` (00_scope.md R18). -/
def setPc (s : State) (target : Word) : State := { s with pc := target }

/-! ### The memory array (20_memory.md R80) -/

/-- The word at an address: the listed one, else `Config.unlistedWord`. -/
def Memory.read : Memory → Nat → Word
  | [], _ => Config.unlistedWord
  | (k, v) :: m, a => if k = a then v else Memory.read m a

/-- The memory without any entry at an address. -/
def Memory.erase : Memory → Nat → Memory
  | [], _ => []
  | (k, v) :: m, a => if k = a then Memory.erase m a else (k, v) :: Memory.erase m a

/-- The memory with an entry put before the first entry that does not lie below it. -/
def Memory.insert : Memory → Nat → Word → Memory
  | [], a, w => [(a, w)]
  | (k, v) :: m, a, w => if a ≤ k then (a, w) :: (k, v) :: m else (k, v) :: Memory.insert m a w

/-- The memory with one word written, in canonical form: a word that an unlisted address reads as anyway
is not listed. -/
def Memory.write (m : Memory) (a : Nat) (w : Word) : Memory :=
  if w = Config.unlistedWord then Memory.erase m a else Memory.insert (Memory.erase m a) a w

/-- Whether every address of a memory lies above `low`. -/
def Memory.above (low : Nat) (m : Memory) : Bool := m.all fun cell => decide (low < cell.1)

/-- The canonical form: addresses strictly rising and below 65536, no entry equal to the unlisted word. -/
def Memory.wf : Memory → Bool
  | [] => true
  | (k, v) :: m =>
    decide (k < Config.memWords) && decide (v ≠ Config.unlistedWord) && Memory.above k m && Memory.wf m

/-- `mem[a]`: the word stored at a word address, read without the I/O bridge. -/
def memWord (s : State) (a : Word) : Word := Memory.read s.mem a.toNat

/-- `mem[a] <- v`. `MemWrite(a, 1, v)` is this at every address, the keyboard's included: a plain store
with no side effect (20_memory.md R90; 90_conflicts.md C1). -/
def memWrite (s : State) (a v : Word) : State := { s with mem := Memory.write s.mem a.toNat v }

/-! ### Host input (00_scope.md R12, R19) -/

/-- A character as a word: `zext_16` (00_scope.md R15). -/
def zext16 (c : Byte) : Word := c.setWidth 16

/-- Bits 7:0 of a word. -/
def lowByte (w : Word) : Byte := bitField w 0 8

/-- Bits 15:8 of a word. -/
def highByte (w : Word) : Byte := bitField w 8 8

/-- What a request gives when the host input has ended: what the OPEN parameter P_EOF says
(43_trap.md R292, log 10). -/
def inputAtEnd : Option Word :=
  match Config.endOfInput with
  | .hold => none
  | .deliver => some 0xFFFF

/-- The word an answer of the host gives, if it is a byte. -/
def InputEvent.word : InputEvent → Option Word
  | .byte c => some (zext16 c)
  | .notYet => none

/-- Answer number `n` of a host nothing is known about (log 6). -/
def freeAnswer (n : Nat) : InputEvent :=
  match Config.hostAnswer n with
  | some c => .byte c
  | none => .notYet

/-- `HostTryRead` (92_eei_decisions.md D10): the word that stands for the next input byte if the host has
one now, else none. A successful poll and the read that follows it are one interaction, and a blocking
read is this with a hold when it answers none. -/
def hostTryRead (s : State) : Option Word × State :=
  match s.input with
  | answer :: rest => (answer.word, { s with input := rest })
  | [] =>
    match s.inputTail with
    | .quiet => (none, s)
    | .ended => (inputAtEnd, s)
    | .repeats first rest => (first.word, { s with input := rest })
    | .free next => ((freeAnswer next).word, { s with inputTail := .free (next + 1) })

/-! ### The memory-mapped I/O bridge (20_memory.md R87 to R92) -/

/-- The effect of a read of KBSR on the two keyboard words: poll, and on success put the ready bit into
KBSR and the character into KBDR, else clear KBSR (20_memory.md R89). -/
def pollKeyboard (s : State) : State :=
  match hostTryRead s with
  | (some w, s') => memWrite (memWrite s' Config.kbsrAddr Config.kbReady) Config.kbdrAddr w
  | (none, s') => memWrite s' Config.kbsrAddr 0x0000

/-- The side effect of a read: a poll at KBSR_ADDR, nothing elsewhere (20_memory.md R86). -/
def intercept (s : State) (a : Word) : State :=
  if a = Config.kbsrAddr then pollKeyboard s else s

/-- `MemRead(a, 1)` (20_memory.md R89): the word read and the state after the read. -/
def memRead (s : State) (a : Word) : Word × State := (memWord (intercept s a) a, intercept s a)

/-- The fetch of 10_state.md R60: `ir <- MemRead(pc, 1)`, then `pc <- pc + 1` modulo 65536. -/
def fetch (s : State) : Word × State :=
  ((memRead s s.pc).1, setPc (memRead s s.pc).2 (s.pc + 1))

/-! ### Host output (20_memory.md R97) -/

/-- `HostWrite(b)`. -/
def hostWrite (s : State) (b : Byte) : State := { s with output := s.output ++ [.byte b] }

/-- `HostFlush()`: an event without data (43_trap.md R289). -/
def hostFlush (s : State) : State := { s with output := s.output ++ [.flush] }

/-! ### The service in progress -/

/-- The step leaves this service unfinished (log 7, 9). -/
def leavePending (s : State) (service : Pending) : State := { s with pending := some service }

/-- No service is left in progress. -/
def clearPending (s : State) : State := { s with pending := none }

/-! ### The external interrupt (60_exceptions.md R356 to R358) -/

/-- Whether the host asserts the external interrupt at the stop point reached now (log 8). -/
def interruptHere (s : State) : Bool := s.interruptIn == some 0

/-- A stop point is passed without the interrupt. -/
def passStopPoint (s : State) : State := { s with interruptIn := s.interruptIn.map (· - 1) }

/-- The external interrupt takes effect: `run <- HALTED(ExternalInterrupt)`; no fault is recorded, and the
rest of the step is not performed (60_exceptions.md R356). -/
def takeInterrupt (s : State) : State :=
  { s with run := .halted .externalInterrupt, interruptIn := none, pending := none }

/-- A stop point inside a step: `rest` is the rest of the step, not performed when the interrupt comes
here (60_exceptions.md R357). -/
def stopPoint (s : State) (rest : State → State) : State :=
  if interruptHere s then takeInterrupt s else rest (passStopPoint s)

/-- `for each byte b of text: HostWrite(b)`, with a stop point after each byte, then `rest`
(43_trap.md R286, R290; 60_exceptions.md R357 (c)). Written by the number of bytes, not byte by byte, so
that a step can be evaluated although the text is an OPEN parameter; Laws/Ops.lean proves that it is the
byte-by-byte loop (hostWriteText_nil, hostWriteText_cons). -/
def hostWriteText (s : State) (text : List Byte) (rest : State → State) : State :=
  match s.interruptIn with
  | none => rest { s with output := s.output ++ text.map .byte }
  | some n =>
    if n < text.length then
      takeInterrupt { s with output := s.output ++ (text.take (n + 1)).map .byte }
    else
      rest { s with output := s.output ++ text.map .byte, interruptIn := some (n - text.length) }

/-! ### The end of a run: HALT and fault entry -/

/-- `halt(reason)`: `run <- HALTED(reason)` (00_scope.md R19). -/
def haltRun (s : State) (reason : HaltReason) : State := { s with run := .halted reason }

/-- The cause codes of 60_exceptions.md R350. -/
def FaultCause.code : FaultCause → Nat
  | .illegalOpcode => 1
  | .unknownTrap => 2

/-- The reason a fault leaves in the run state (60_exceptions.md R351). -/
def FaultCause.reason : FaultCause → HaltReason
  | .illegalOpcode => .illegalOpcode
  | .unknownTrap => .unknownTrap

/-- Taking a fault (60_exceptions.md R351): `fault <- (code, word, pc - 1)`, `run <- HALTED(F)`, and
nothing else. There is no return from it: the machine has no return-from-exception instruction
(60_exceptions.md R359). -/
def raiseFault (s : State) (cause : FaultCause) (word : Word) : State :=
  haltRun { s with fault := some ⟨cause, word, s.pc - 1⟩ } cause.reason

end Sys2Proof.Machine
end

