-- ==== Sys2Proof/Machine/Boot.lean ====
section
/-! DEFINITION. The image load before the first step (70_reset_and_hazards.md R400 to R410). -/

namespace Sys2Proof.Machine

/-- Why a run never starts (70_reset_and_hazards.md R410, R412). -/
inductive StartupError where
  /-- No image was given. -/
  | noImage
  /-- An image of fewer than 2 bytes has no origin word (R408). -/
  | loadFailed
  deriving DecidableEq, Repr

/-- The 16-bit big-endian words of an image file; a single last byte is dropped
(70_reset_and_hazards.md R405, R408). -/
def bigEndianWords : List Byte → List Word
  | high :: low :: rest => (high ++ low) :: bigEndianWords rest
  | _ => []

/-- Words loaded sequentially from an address on; loading stops when the address space is exhausted
(70_reset_and_hazards.md R405, R406). The write does not go through the I/O bridge (R405). -/
def storeWords : Memory → Nat → List Word → Memory
  | m, _, [] => m
  | m, a, w :: rest =>
    if a < Config.memWords then storeWords (Memory.write m a w) (a + 1) rest else m

/-- One image over a memory: the first word is the origin and is not stored (70_reset_and_hazards.md R405). -/
def loadImage (m : Memory) (file : List Byte) : Except StartupError Memory :=
  match bigEndianWords file with
  | [] => .error .loadFailed
  | origin :: rest => .ok (storeWords m origin.toNat rest)

/-- Images loaded in command-line order, a later one over an earlier one (70_reset_and_hazards.md R407). -/
def loadImages : Memory → List (List Byte) → Except StartupError Memory
  | m, [] => .ok m
  | m, file :: rest =>
    match loadImage m file with
    | .error e => .error e
    | .ok m' => loadImages m' rest

/-- The start of a run: MEM_INIT, the images over it, then the reset values
(70_reset_and_hazards.md R400, R401, R404). With no image, or one that fails to load, the CORE never runs
(R410, R412). -/
def boot (memInit : Memory) (files : List (List Byte)) : Except StartupError State :=
  if files = [] then .error .noImage
  else
    match loadImages memInit files with
    | .error e => .error e
    | .ok m => .ok (State.resetWith m)

end Sys2Proof.Machine
end

