-- ==== Sys2Proof/Machine/Operands.lean ====
section
/-! DEFINITION. The operand forms: sign extension and the effective addresses of 42_load_store.md R247. -/

namespace Sys2Proof.Machine

/-- `sext_N(f)` for an N-bit field (00_scope.md R15): when bit N-1 is 1 the bits above the field are set,
else the field is unchanged. -/
def sext16 {n : Nat} (f : BitVec n) : Word :=
  if f.msb then f.setWidth 16 ||| (0xFFFF#16 <<< n) else f.setWidth 16

/-- PC-relative: `pc + sext_N(f)`, with pc the post-increment pc (10_state.md R45). -/
def pcRelative (s : State) {n : Nat} (offset : BitVec n) : Word := s.pc + sext16 offset

/-- Base plus offset: `x[BaseR] + sext_6(ir[5:0])` (42_load_store.md R242). -/
def baseOffset (s : State) (base : Reg) (offset : BitVec 6) : Word := readReg s base + sext16 offset

/-- The pointer read of the indirect forms, `MemRead(pc + sext_9(ir[8:0]), 1)`, through the interception
(42_load_store.md R241, R245): the effective address and the state after the read. -/
def indirect (s : State) (offset : BitVec 9) : Word × State := memRead s (pcRelative s offset)

end Sys2Proof.Machine
end

