-- ==== Sys2Proof/Machine/Flags.lean ====
section
/-! DEFINITION. The condition-flag state machine (10_state.md R49 to R54) and the test of BR. -/

namespace Sys2Proof.Machine

/-- The one-hot value of the condition register: N = 0b100, Z = 0b010, P = 0b001 (10_state.md R49). -/
def Cond.bits : Cond → BitVec 3
  | .n => 0b100
  | .z => 0b010
  | .p => 0b001

/-- The condition of a value: Z when it is 0x0000, N when bit 15 is 1, else P (10_state.md R50). -/
def condOf (v : Word) : Cond :=
  if v = 0x0000 then .z else if v.getLsbD 15 then .n else .p

/-- `setcc(r)`: reads the register back and sets cond from the stored value (10_state.md R50). -/
def setcc (s : State) (r : Reg) : State := { s with cond := condOf (readReg s r) }

/-- `x[r] <- v; setcc(r)`: the last actions of every flag-setting instruction (10_state.md R51, R421). -/
def writeAndSetcc (s : State) (r : Reg) (v : Word) : State := setcc (writeReg s r v) r

/-- BR's test, `(ir[11:9] & cond) != 0b000` (41_control.md R200). -/
def branchTaken (s : State) (nzp : BitVec 3) : Bool := nzp &&& s.cond.bits != 0b000

end Sys2Proof.Machine
end

