-- ==== Sys2Proof/Machine/Control.lean ====
section
/-! DEFINITION. Control transfer: BR, JMP (RET), JSR, JSRR (41_control.md). `s.pc` is the post-increment pc. -/

namespace Sys2Proof.Machine

/-- BR (41_control.md R200): the target is taken when the test succeeds, else pc stays. -/
def execBr (nzp : BitVec 3) (offset : BitVec 9) (s : State) : Host.Outcome State Fault Refusal :=
  .next (if branchTaken s nzp then setPc s (pcRelative s offset) else s)

/-- JMP; RET is BaseR = R7 (41_control.md R201, R202). -/
def execJmp (base : Reg) (_unreadHigh : BitVec 3) (_unreadLow : BitVec 6) (s : State) :
    Host.Outcome State Fault Refusal :=
  .next (setPc s (readReg s base))

/-- The link of a call: `x[7] <- pc`, the post-increment pc (41_control.md R203). -/
def link (s : State) : State := writeReg s .r7 s.pc

/-- JSR (41_control.md R203). -/
def execJsr (offset : BitVec 11) (s : State) : Host.Outcome State Fault Refusal :=
  .next (setPc (link s) (pcRelative s offset))

/-- JSRR (41_control.md R204): x[7] is written first and BaseR is read after it, so that `JSRR R7` falls
through (92_eei_decisions.md D5, log 15). -/
def execJsrr (base : Reg) (_unreadHigh : BitVec 2) (_unreadLow : BitVec 6) (s : State) :
    Host.Outcome State Fault Refusal :=
  .next (setPc (link s) (readReg (link s) base))

end Sys2Proof.Machine
end

