-- ==== Sys2Proof/Machine/Illegal.lean ====
section
/-! DEFINITION. The illegal opcodes RTI and RES: the fault IllegalOpcode is taken (44_illegal.md). -/

namespace Sys2Proof.Machine

/-- RTI (44_illegal.md R331). -/
def execRti (unread : BitVec 12) (s : State) : Host.Outcome State Fault Refusal :=
  .next (raiseFault s .illegalOpcode (encode (.rti unread)))

/-- RES (44_illegal.md R330). -/
def execRes (unread : BitVec 12) (s : State) : Host.Outcome State Fault Refusal :=
  .next (raiseFault s .illegalOpcode (encode (.res unread)))

end Sys2Proof.Machine
end

