-- ==== Sys2Proof/Machine/LoadStore.lean ====
section
/-! DEFINITION. Loads, stores and LEA (42_load_store.md). Every read is MemRead, through the I/O bridge;
every write is MemWrite. `s.pc` is the post-increment pc. -/

namespace Sys2Proof.Machine

/-- `x[DR] <- MemRead(ea, 1); setcc(DR)`: the end of LD, LDI and LDR. -/
def loadInto (dr : Reg) (ea : Word) (s : State) : State :=
  writeAndSetcc (memRead s ea).2 dr (memRead s ea).1

/-- LD (42_load_store.md R240). -/
def execLd (dr : Reg) (offset : BitVec 9) (s : State) : Host.Outcome State Fault Refusal :=
  .next (loadInto dr (pcRelative s offset) s)

/-- LDI (42_load_store.md R241): the pointer read, then the data read, both through the bridge. -/
def execLdi (dr : Reg) (offset : BitVec 9) (s : State) : Host.Outcome State Fault Refusal :=
  .next (loadInto dr (indirect s offset).1 (indirect s offset).2)

/-- LDR (42_load_store.md R242): the address is computed from the old base. -/
def execLdr (dr base : Reg) (offset : BitVec 6) (s : State) : Host.Outcome State Fault Refusal :=
  .next (loadInto dr (baseOffset s base offset) s)

/-- LEA (42_load_store.md R243): no memory access; the flags are set (90_conflicts.md C5). -/
def execLea (dr : Reg) (offset : BitVec 9) (s : State) : Host.Outcome State Fault Refusal :=
  .next (writeAndSetcc s dr (pcRelative s offset))

/-- ST (42_load_store.md R244). -/
def execSt (sr : Reg) (offset : BitVec 9) (s : State) : Host.Outcome State Fault Refusal :=
  .next (memWrite s (pcRelative s offset) (readReg s sr))

/-- STI (42_load_store.md R245): the pointer read goes through the bridge; the flags are not set. -/
def execSti (sr : Reg) (offset : BitVec 9) (s : State) : Host.Outcome State Fault Refusal :=
  .next (memWrite (indirect s offset).2 (indirect s offset).1 (readReg (indirect s offset).2 sr))

/-- STR (42_load_store.md R246). -/
def execStr (sr base : Reg) (offset : BitVec 6) (s : State) : Host.Outcome State Fault Refusal :=
  .next (memWrite s (baseOffset s base offset) (readReg s sr))

end Sys2Proof.Machine
end

