-- ==== Sys2Proof/Machine/Operate.lean ====
section
/-! DEFINITION. The operate instructions ADD, AND, NOT (40_operate.md). The state a meaning is given is the
state after the fetch: its pc is the post-increment pc (10_state.md R45). -/

namespace Sys2Proof.Machine

/-- ADD, register mode (40_operate.md R160): both sources are read before the write. -/
def execAddReg (dr sr1 sr2 : Reg) (_unread : BitVec 2) (s : State) : Host.Outcome State Fault Refusal :=
  .next (writeAndSetcc s dr (readReg s sr1 + readReg s sr2))

/-- ADD, immediate mode (40_operate.md R161). -/
def execAddImm (dr sr1 : Reg) (imm : BitVec 5) (s : State) : Host.Outcome State Fault Refusal :=
  .next (writeAndSetcc s dr (readReg s sr1 + sext16 imm))

/-- AND, register mode (40_operate.md R163). -/
def execAndReg (dr sr1 sr2 : Reg) (_unread : BitVec 2) (s : State) : Host.Outcome State Fault Refusal :=
  .next (writeAndSetcc s dr (readReg s sr1 &&& readReg s sr2))

/-- AND, immediate mode (40_operate.md R164). With imm5 = 0 the rule writes 0x0000 without reading the
source; every register holds a value here (log 1), so its two branches are one. -/
def execAndImm (dr sr1 : Reg) (imm : BitVec 5) (s : State) : Host.Outcome State Fault Refusal :=
  .next (writeAndSetcc s dr (readReg s sr1 &&& sext16 imm))

/-- NOT (40_operate.md R166). -/
def execNotReg (dr sr : Reg) (_unread : BitVec 6) (s : State) : Host.Outcome State Fault Refusal :=
  .next (writeAndSetcc s dr (~~~ readReg s sr))

end Sys2Proof.Machine
end

