-- ==== Sys2Proof/Machine/Trap.lean ====
section
/-! DEFINITION. TRAP and the trap services (43_trap.md). A service runs natively inside the step; it writes
no x[7] and changes no mode (R280, R282). -/

namespace Sys2Proof.Machine

/-- `x[0] <- w; setcc(0)`: the end of GETC and IN. -/
def deliverInput (s : State) (w : Word) : State := writeAndSetcc s .r0 w

/-- GETC from its HostRead on (43_trap.md R283): with no byte there the step holds. -/
def getcRead (s : State) : State :=
  match hostTryRead s with
  | (some w, s') => deliverInput (clearPending s') w
  | (none, s') => leavePending s' .getc

/-- IN from its HostRead on (43_trap.md R286): echo, flush, x[0], setcc(0). DESIGN CHOICE (log 8): the stop point
after the last prompt byte lies before the HostRead and the next one after the echo, so that no interrupt takes
a byte and leaves it unechoed; 60_exceptions.md R357 does not say on which side of the read it falls. -/
def inRead (s : State) : State :=
  match hostTryRead s with
  | (some w, s') =>
    stopPoint (hostWrite (clearPending s') (lowByte w)) fun t => deliverInput (hostFlush t) w
  | (none, s') => leavePending s' .inRead

/-- PUTS from the string word at `a` on (43_trap.md R285): each word is read through the bridge (R288), its
low byte written, until a word is 0x0000; then the flush. A stop point follows each byte
(60_exceptions.md R357 (c)), before the read of the next word (DESIGN CHOICE, log 8). After `fuel` nonzero words the service is left pending, so that no string is
cut short (70_reset_and_hazards.md R423, log 9). -/
def putsFrom : Nat → Word → State → State
  | 0, a, s => leavePending s (.puts a)
  | fuel + 1, a, s =>
    if (memRead s a).1 = 0x0000 then hostFlush (clearPending (memRead s a).2)
    else
      stopPoint (hostWrite (memRead s a).2 (lowByte (memRead s a).1)) fun t => putsFrom fuel (a + 1) t

/-- The second byte of a packed word: written, with a stop point after it, when it is not 0x00
(43_trap.md R287). -/
def writeHighByte (w : Word) (s : State) (rest : State → State) : State :=
  if highByte w = 0x00 then rest s else stopPoint (hostWrite s (highByte w)) rest

/-- PUTSP from the string word at `a` on (43_trap.md R287): as PUTS, with the high byte after the low byte
when it is not 0x00. -/
def putspFrom : Nat → Word → State → State
  | 0, a, s => leavePending s (.putsp a)
  | fuel + 1, a, s =>
    if (memRead s a).1 = 0x0000 then hostFlush (clearPending (memRead s a).2)
    else
      stopPoint (hostWrite (memRead s a).2 (lowByte (memRead s a).1)) fun t =>
        writeHighByte (memRead s a).1 t fun u => putspFrom fuel (a + 1) u

/-- A service left in progress goes on (00_scope.md R10; log 7, 9). -/
def resume (service : Pending) (s : State) : State :=
  match service with
  | .getc => getcRead s
  | .inRead => inRead s
  | .puts a => putsFrom Config.memWords a s
  | .putsp a => putspFrom Config.memWords a s

/-- TRAP x20, GETC (43_trap.md R283). -/
def execTrapGetc (_unread : BitVec 4) (s : State) : Host.Outcome State Fault Refusal :=
  .next (getcRead s)

/-- TRAP x21, OUT (43_trap.md R284). -/
def execTrapOut (_unread : BitVec 4) (s : State) : Host.Outcome State Fault Refusal :=
  .next (hostFlush (hostWrite s (lowByte (readReg s .r0))))

/-- TRAP x22, PUTS (43_trap.md R285). -/
def execTrapPuts (_unread : BitVec 4) (s : State) : Host.Outcome State Fault Refusal :=
  .next (putsFrom Config.memWords (readReg s .r0) s)

/-- TRAP x23, IN (43_trap.md R286): the prompt, then the read. -/
def execTrapIn (_unread : BitVec 4) (s : State) : Host.Outcome State Fault Refusal :=
  .next (hostWriteText s Config.inPrompt inRead)

/-- TRAP x24, PUTSP (43_trap.md R287). -/
def execTrapPutsp (_unread : BitVec 4) (s : State) : Host.Outcome State Fault Refusal :=
  .next (putspFrom Config.memWords (readReg s .r0) s)

/-- TRAP x25, HALT (43_trap.md R290): the notice, the flush, then HALTED(Halt). -/
def execTrapHalt (_unread : BitVec 4) (s : State) : Host.Outcome State Fault Refusal :=
  .next (hostWriteText s Config.haltNotice fun t => haltRun (hostFlush t) .halt)

/-- TRAP with an unknown vector (43_trap.md R291): the fault UnknownTrap is taken (an ill-formed vector: log 17). -/
def execTrapUnknown (unread : BitVec 4) (vector : BitVec 8) (s : State) : Host.Outcome State Fault Refusal :=
  .next (raiseFault s .unknownTrap (encode (.trapUnknown unread vector)))

end Sys2Proof.Machine
end

