-- ==== Sys2Proof/Machine/Dispatch.lean ====
section
/-! DEFINITION. The dispatch: one arm for each constructor of Instr (10_state.md R61; 43_trap.md R280). -/

namespace Sys2Proof.Machine

def exec (i : Instr) (s : State) : Host.Outcome State Fault Refusal :=
  match i with
  | .br nzp offset => Sys2Proof.Machine.execBr nzp offset s
  | .addReg dr sr1 sr2 unread => Sys2Proof.Machine.execAddReg dr sr1 sr2 unread s
  | .addImm dr sr1 imm => Sys2Proof.Machine.execAddImm dr sr1 imm s
  | .ld dr offset => Sys2Proof.Machine.execLd dr offset s
  | .st sr offset => Sys2Proof.Machine.execSt sr offset s
  | .jsrr base unreadHigh unreadLow => Sys2Proof.Machine.execJsrr base unreadHigh unreadLow s
  | .jsr offset => Sys2Proof.Machine.execJsr offset s
  | .andReg dr sr1 sr2 unread => Sys2Proof.Machine.execAndReg dr sr1 sr2 unread s
  | .andImm dr sr1 imm => Sys2Proof.Machine.execAndImm dr sr1 imm s
  | .ldr dr base offset => Sys2Proof.Machine.execLdr dr base offset s
  | .str sr base offset => Sys2Proof.Machine.execStr sr base offset s
  | .rti unread => Sys2Proof.Machine.execRti unread s
  | .notReg dr sr unread => Sys2Proof.Machine.execNotReg dr sr unread s
  | .ldi dr offset => Sys2Proof.Machine.execLdi dr offset s
  | .sti sr offset => Sys2Proof.Machine.execSti sr offset s
  | .jmp base unreadHigh unreadLow => Sys2Proof.Machine.execJmp base unreadHigh unreadLow s
  | .res unread => Sys2Proof.Machine.execRes unread s
  | .lea dr offset => Sys2Proof.Machine.execLea dr offset s
  | .trapGetc unread => Sys2Proof.Machine.execTrapGetc unread s
  | .trapOut unread => Sys2Proof.Machine.execTrapOut unread s
  | .trapPuts unread => Sys2Proof.Machine.execTrapPuts unread s
  | .trapIn unread => Sys2Proof.Machine.execTrapIn unread s
  | .trapPutsp unread => Sys2Proof.Machine.execTrapPutsp unread s
  | .trapHalt unread => Sys2Proof.Machine.execTrapHalt unread s
  | .trapUnknown unread vector => Sys2Proof.Machine.execTrapUnknown unread vector s

end Sys2Proof.Machine
end

