-- ==== Sys2Proof/Machine/Step.lean ====
section
/-! DEFINITION. The instruction cycle (10_state.md R60), and the host's placing of one instruction. -/

namespace Sys2Proof.Machine

/-- One step. A halted machine takes none and stays as it is (10_state.md R56, log 13). A running one meets
the stop point between two steps (60_exceptions.md R357 (a), (b)); then a service in progress goes on, or the
next instruction is fetched, decoded and executed (10_state.md R60). -/
def step (s : State) : Host.Outcome State Fault Refusal :=
  match s.run with
  | .halted _ => .next s
  | .running =>
    if interruptHere s then .next (takeInterrupt s)
    else
      match s.pending with
      | some service => .next (resume service (passStopPoint s))
      | none => exec (decode (fetch (passStopPoint s)).1) (fetch (passStopPoint s)).2

/-- The host's placing of an instruction of at most 16 bits where the next step fetches: at pc. Log 16 says
how a program comes to run from reset. -/
def State.withFetchWord (s : State) (nbits w : Nat) : State :=
  memWrite s s.pc ((BitVec.ofNat nbits w).setWidth 16)

end Sys2Proof.Machine
end

