-- ==== Sys2Proof/Safety.lean ====
section
/-! DEFINITION. The terms the claims use: what two states agree on, what a condition says of a value, the
string a service reads, and the invariant of the machine. -/

namespace Sys2Proof.Machine

/-! ### What two states agree on -/

/-- Every general register is as before. -/
def SameRegs (s t : State) : Prop := ∀ q, readReg t q = readReg s q

/-- Every general register but `r` is as before. -/
def SameRegsBut (s t : State) (r : Reg) : Prop := ∀ q, q ≠ r → readReg t q = readReg s q

/-- Every word of memory reads as before. -/
def SameMemory (s t : State) : Prop := ∀ a, memWord t a = memWord s a

/-- Every word of memory but the one at `a` reads as before. -/
def SameMemoryBut (s t : State) (a : Word) : Prop := ∀ b, b ≠ a → memWord t b = memWord s b

/-- The run state and the fault record are as before. -/
def SameRun (s t : State) : Prop := t.run = s.run ∧ t.fault = s.fault

/-- The host's coming input is as before: none was taken. -/
def SameInput (s t : State) : Prop := t.input = s.input ∧ t.inputTail = s.inputTail

/-- The host output, the coming interrupt and the service in progress are as before. -/
def SameOutside (s t : State) : Prop :=
  t.output = s.output ∧ t.interruptIn = s.interruptIn ∧ t.pending = s.pending

/-- The frame of an instruction that only writes the register `r` and cond. -/
def OnlyRegAndCond (s t : State) (r : Reg) : Prop :=
  SameRegsBut s t r ∧ t.pc = s.pc ∧ SameMemory s t ∧ SameRun s t ∧ SameInput s t ∧ SameOutside s t

/-- The frame of an instruction that only writes pc. -/
def OnlyPc (s t : State) : Prop :=
  SameRegs s t ∧ t.cond = s.cond ∧ SameMemory s t ∧ SameRun s t ∧ SameInput s t ∧ SameOutside s t

/-- The frame of a call: only pc and the link register R7 are written. -/
def OnlyPcAndLink (s t : State) : Prop :=
  SameRegsBut s t .r7 ∧ t.cond = s.cond ∧ SameMemory s t ∧ SameRun s t ∧ SameInput s t ∧ SameOutside s t

/-- The frame of an instruction that only writes memory and only at `a`. -/
def OnlyWordAt (s t : State) (a : Word) : Prop :=
  SameRegs s t ∧ t.pc = s.pc ∧ t.cond = s.cond ∧ SameMemoryBut s t a ∧ SameRun s t ∧ SameInput s t ∧
    SameOutside s t

/-- Registers, pc, cond and memory are as before: what a host-output service leaves alone. -/
def SameProgramState (s t : State) : Prop :=
  SameRegs s t ∧ t.pc = s.pc ∧ t.cond = s.cond ∧ SameMemory s t

/-- The condition register reads a value as two's complement: Z zero, N below zero, P above zero
(40_operate.md R167). -/
def CondReads (c : Cond) (v : Word) : Prop :=
  (c = .z ↔ v.toInt = 0) ∧ (c = .n ↔ v.toInt < 0) ∧ (c = .p ↔ 0 < v.toInt)

/-- The result of a load of the value `v` into `dr`: `s` is the state before the instruction, `r` the state
after its reads (which differ from `s` only where a read polled the keyboard). -/
def LoadResult (s r t : State) (dr : Reg) (v : Word) : Prop :=
  readReg t dr = v ∧ CondReads t.cond v ∧ SameRegsBut s t dr ∧ t.pc = s.pc ∧ SameMemory r t ∧
    SameInput r t ∧ SameRun s t ∧ SameOutside s t

/-- The sum of an address and a signed offset, modulo 65536 (00_scope.md R14, R15). -/
def IsSum (sum base : Word) (offset : Int) : Prop := (sum.toNat : Int) = (base.toNat + offset) % 65536

/-! ### The host's answers -/

/-- The `n`-th answer of an input tail, if it has one. -/
def InputTail.answer (tail : InputTail) (n : Nat) : Option InputEvent :=
  match tail with
  | .quiet => none
  | .ended => none
  | .repeats first rest => (first :: rest)[n % (rest.length + 1)]?
  | .free next => some (freeAnswer (next + n))

/-- The host's answer to the `n`-th request from now on, if it has one (log 6). -/
def answer (s : State) (n : Nat) : Option InputEvent :=
  if n < s.input.length then s.input[n]? else s.inputTail.answer (n - s.input.length)

/-- The host has the byte `c` for a request made now. -/
def HasByte (s : State) (c : Byte) : Prop := answer s 0 = some (.byte c)

/-- The host has no byte for a request made now, and its input has not ended. -/
def NoByteYet (s : State) : Prop :=
  answer s 0 = some .notYet ∨ (answer s 0 = none ∧ s.inputTail ≠ .ended)

/-- `k` answers of the host have been used up, and whether its input ends is as before. -/
def AnswersTaken (k : Nat) (s t : State) : Prop :=
  (∀ n, answer t n = answer s (n + k)) ∧ (t.inputTail = .ended ↔ s.inputTail = .ended)

/-- The external interrupt, if one is to come, comes after `n` more stop points at the earliest. -/
def NoInterruptWithin (s : State) (n : Nat) : Prop := ∀ k, s.interruptIn = some k → n ≤ k

/-- `n` stop points have been passed. -/
def StopPointsPassed (n : Nat) (s t : State) : Prop := t.interruptIn = s.interruptIn.map (· - n)

/-! ### The strings of PUTS and PUTSP -/

/-- The word `k` places after `a`; the address wraps (43_trap.md R288). -/
def stringWord (s : State) (a : Word) (k : Nat) : Word := memWord s (a + BitVec.ofNat 16 k)

/-- `n` nonzero words from `a` on, then a word 0x0000, none of them at KBSR_ADDR. -/
def StringAt (s : State) (a : Word) (n : Nat) : Prop :=
  n < Config.memWords ∧ (∀ k < n, stringWord s a k ≠ 0x0000) ∧ stringWord s a n = 0x0000 ∧
    ∀ k ≤ n, a + BitVec.ofNat 16 k ≠ Config.kbsrAddr

/-- The output events of PUTS for a word: its low byte (43_trap.md R285). -/
def putsEvents (w : Word) : List OutputEvent := [.byte (w.setWidth 8)]

/-- The output events of PUTSP for a word: its low byte, then its high byte if that is not 0x00
(43_trap.md R287). -/
def putspEvents (w : Word) : List OutputEvent :=
  if w.extractLsb' 8 8 = 0x00 then [.byte (w.setWidth 8)]
  else [.byte (w.setWidth 8), .byte (w.extractLsb' 8 8)]

/-- The two services that write a string (43_trap.md R285, R287). -/
inductive StringService where
  | puts
  | putsp
  deriving DecidableEq, Repr

/-- Its TRAP instruction. -/
def StringService.instr (v : StringService) (unread : BitVec 4) : Instr :=
  match v with
  | .puts => .trapPuts unread
  | .putsp => .trapPutsp unread

/-- It in progress at an address. -/
def StringService.pending (v : StringService) (a : Word) : Pending :=
  match v with
  | .puts => .puts a
  | .putsp => .putsp a

/-- Its output events for one word. -/
def StringService.events (v : StringService) (w : Word) : List OutputEvent :=
  match v with
  | .puts => putsEvents w
  | .putsp => putspEvents w

/-- Its output events for the `n` words from `a` on. -/
def StringService.output (v : StringService) (s : State) (a : Word) (n : Nat) : List OutputEvent :=
  (List.range n).flatMap fun k => v.events (stringWord s a k)

/-- A string service that can never end (70_reset_and_hazards.md R423): it is in progress in a running machine to
which no interrupt comes, every word of memory is nonzero, and so is every byte of an input that never ends. -/
def Endless (v : StringService) (a : Word) (s : State) : Prop :=
  s.run = .running ∧ s.interruptIn = none ∧ s.pending = some (v.pending a) ∧
    (∀ b, memWord s b ≠ 0x0000) ∧ ∀ n, ∃ c : Byte, c ≠ 0x00 ∧ answer s n = some (.byte c)

/-! ### The invariant -/

/-- Whether a word is one whose execution raises a fault of this cause (60_exceptions.md R350). -/
def raisesFault (cause : FaultCause) (w : Word) : Bool :=
  match cause, decode w with
  | .illegalOpcode, .rti _ => true
  | .illegalOpcode, .res _ => true
  | .unknownTrap, .trapUnknown _ _ => true
  | _, _ => false

/-- Whether the run state and the fault record belong together: a record exactly when a fault ended the
run, with the cause the run state names and a word that raises it (10_state.md R56, R58). -/
def recordFits (run : RunState) (fault : Option FaultRecord) : Bool :=
  match run, fault with
  | .halted .illegalOpcode, some f => f.cause == .illegalOpcode && raisesFault .illegalOpcode f.word
  | .halted .unknownTrap, some f => f.cause == .unknownTrap && raisesFault .unknownTrap f.word
  | .halted .illegalOpcode, none => false
  | .halted .unknownTrap, none => false
  | _, none => true
  | _, some _ => false

/-- The invariant of the machine: memory keeps its canonical form, the fault record fits the run state,
and a service is in progress only while the machine runs. -/
def State.Inv (s : State) : Prop :=
  Memory.wf s.mem = true ∧ recordFits s.run s.fault = true ∧ (s.pending ≠ none → s.run = .running)

end Sys2Proof.Machine
end

