-- ==== Sys2Proof/Certificates/Slice0/Obligations.lean ====
section
/-! DEFINITION. The statements for the provers. A state given to `exec` is the state after the fetch: its pc
is the post-increment pc (10_state.md R45). "log n" is notes/assumptions/n.md. -/

open Sys2Proof Sys2Proof.Machine

/-! ### Encoding -/

/-- For every well-formed instruction, decode of its word is the instruction: no bit of an encoding is
dropped. -/
def Obligations.DecodeOfEncodeIsTheInstruction : Prop :=
  ∀ i : Instr, i.wellFormed = true → decode (encode i) = i

/-- For every word, encode of its decoding is the word, and the decoding is well-formed. -/
def Obligations.EncodeOfDecodeIsTheWord : Prop :=
  ∀ w : Word, encode (decode w) = w ∧ (decode w).wellFormed = true

/-- 30_encoding.md R134: of the table's 25 rows exactly one selects each word, and the decoder gives an
instruction of that row. -/
def Obligations.EveryWordSelectsExactlyOneRow : Prop :=
  opcodeTable.length = 25 ∧ ∀ w : Word, opcodeTable.filter (·.selects w) = [(decode w).row]

/-- A few words written out from the spec's encodings and worked examples (R138, R139, 95_test_vectors.md)
decode to the instructions they stand for. -/
def Obligations.WrittenOutWordsDecode : Prop :=
  decode 0x1065 = .addImm .r0 .r1 5 ∧ decode 0x107F = .addImm .r0 .r1 0x1F ∧
    decode 0x5020 = .andImm .r0 .r0 0 ∧ decode 0xC1C0 = .jmp .r7 0 0 ∧
    decode 0x1042 = .addReg .r0 .r1 .r2 0 ∧ decode 0x997F = .notReg .r4 .r5 0x3F ∧
    decode 0x0402 = .br 0b010 2 ∧ decode 0x4810 = .jsr 16 ∧ decode 0x40C0 = .jsrr .r3 0 0 ∧
    decode 0x697E = .ldr .r4 .r5 0x3E ∧ decode 0xF525 = .trapHalt 5 ∧ decode 0xF026 = .trapUnknown 0 0x26

/-- 92_eei_decisions.md D4, the spec's own decision on 30_encoding.md R131 (log 5): bits an opcode does not
read do not change what the instruction does; for the illegal words they change only the recorded word. -/
def Obligations.UnreadBitsChangeNothing : Prop :=
  ∀ (dr a b : Reg) (s : State),
    (∀ u v, exec (.addReg dr a b u) s = exec (.addReg dr a b v) s ∧
      exec (.andReg dr a b u) s = exec (.andReg dr a b v) s) ∧
    (∀ u v, exec (.notReg dr a u) s = exec (.notReg dr a v) s) ∧
    (∀ h l h' l', exec (.jmp a h l) s = exec (.jmp a h' l') s) ∧
    (∀ h l h' l', exec (.jsrr a h l) s = exec (.jsrr a h' l') s) ∧
    (∀ u v, exec (.trapGetc u) s = exec (.trapGetc v) s ∧ exec (.trapOut u) s = exec (.trapOut v) s ∧
      exec (.trapPuts u) s = exec (.trapPuts v) s ∧ exec (.trapIn u) s = exec (.trapIn v) s ∧
      exec (.trapPutsp u) s = exec (.trapPutsp v) s ∧ exec (.trapHalt u) s = exec (.trapHalt v) s)

/-! ### Extension and address sums -/

/-- 00_scope.md R15: sext_N copies the field and its sign bit into the bits above it, for N = 5, 6, 9, 11;
zext_16 puts a byte into bits 7:0 with bits 15:8 zero. -/
def Obligations.ExtensionFollowsTheSignBit : Prop :=
  (∀ n, n = 5 ∨ n = 6 ∨ n = 9 ∨ n = 11 → ∀ (f : BitVec n) (i : Nat), i < 16 →
    (sext16 f).getLsbD i = if i < n then f.getLsbD i else f.getLsbD (n - 1)) ∧
  ∀ (c : Byte) (i : Nat), (zext16 c).getLsbD i = if i < 8 then c.getLsbD i else false

/-- The effective addresses are two's-complement sums modulo 65536 (00_scope.md R14, 42_load_store.md R247),
from the pc or the base register. -/
def Obligations.EffectiveAddressesWrap : Prop :=
  ∀ (s : State) (base : Reg) (o5 : BitVec 6) (o9 : BitVec 9) (o11 : BitVec 11),
    IsSum (pcRelative s o9) s.pc o9.toInt ∧ IsSum (pcRelative s o11) s.pc o11.toInt ∧
      IsSum (baseOffset s base o5) (readReg s base) o5.toInt

/-! ### Reset and the image load -/

/-- 10_state.md R47, R53, R57: after reset, and after every image load, pc is 0x3000, cond is Z and run is
RUNNING. -/
def Obligations.ResetSetsPcCondAndRun : Prop :=
  (State.reset.pc = 0x3000 ∧ State.reset.cond = .z ∧ State.reset.run = .running) ∧
  ∀ (memInit : Memory) (files : List (List Byte)) (s : State), boot memInit files = .ok s →
    s.pc = 0x3000 ∧ s.cond = .z ∧ s.run = .running

/-- The MODEL'S CHOICE (log 1, log 2): at reset every general register and every word of memory reads 0x0000,
the reference implementation's values; the spec leaves both open. The fault record is empty (the spec's own
decision D16). -/
def Obligations.ResetRegistersAndMemoryReadZero : Prop :=
  (∀ r, readReg State.reset r = 0x0000) ∧ (∀ a, memWord State.reset a = 0x0000) ∧ State.reset.fault = none

/-- 70_reset_and_hazards.md R409: an image with origin o and N words, o + N <= 65536, gives back exactly its
words at o .. o+N-1. -/
def Obligations.ImageLoadRoundTrip : Prop :=
  ∀ (m : Memory) (origin : Word) (ws : List Word), origin.toNat + ws.length ≤ 65536 →
    ∃ m', loadImage m ((origin :: ws).flatMap fun w => [w.extractLsb' 8 8, w.extractLsb' 0 8]) = .ok m' ∧
      ∀ (k : Nat) (h : k < ws.length), Memory.read m' (origin.toNat + k) = ws[k]

/-- 70_reset_and_hazards.md R406: words past mem[0xFFFF] are dropped, not wrapped, and that is no error: no
word outside origin .. 65535 changes. -/
def Obligations.ImageLoadStopsAtTheTop : Prop :=
  ∀ (m : Memory) (origin : Word) (ws : List Word),
    ∃ m', loadImage m ((origin :: ws).flatMap fun w => [w.extractLsb' 8 8, w.extractLsb' 0 8]) = .ok m' ∧
      (∀ (k : Nat) (h : k < ws.length), origin.toNat + k < 65536 →
        Memory.read m' (origin.toNat + k) = ws[k]) ∧
      ∀ a, a < origin.toNat ∨ 65536 ≤ a ∨ origin.toNat + ws.length ≤ a → Memory.read m' a = Memory.read m a

/-- 92_eei_decisions.md D21 (the spec's own decision on short files) and 70_reset_and_hazards.md R410: without
an image, or with a first file under 2 bytes, the CORE never runs. -/
def Obligations.NoRunWithoutAnImage : Prop :=
  ∀ (m : Memory) (file : List Byte) (files : List (List Byte)),
    boot m [] = .error .noImage ∧ (file.length < 2 → boot m (file :: files) = .error .loadFailed) ∧
      (2 ≤ file.length → ∃ m', loadImage m file = .ok m' ∧ boot m [file] = .ok (State.resetWith m'))

/-! ### Flags -/

/-- 10_state.md R50: setcc reads the register back and sets Z, N or P; nothing else changes. -/
def Obligations.SetccFollowsTheStoredValue : Prop :=
  ∀ (s : State) (r : Reg), CondReads (setcc s r).cond (readReg s r) ∧
    (readReg s r = 0x0000 → (setcc s r).cond = .z) ∧
    (readReg s r ≠ 0x0000 → (readReg s r).getLsbD 15 = true → (setcc s r).cond = .n) ∧
    (readReg s r ≠ 0x0000 → (readReg s r).getLsbD 15 = false → (setcc s r).cond = .p) ∧
    SameRegs s (setcc s r) ∧ (setcc s r).pc = s.pc ∧ SameMemory s (setcc s r) ∧ SameRun s (setcc s r) ∧
    SameInput s (setcc s r) ∧ SameOutside s (setcc s r)

/-- 10_state.md R51 (derived there): every instruction but ADD, AND, NOT, LD, LDI, LDR, LEA, GETC and IN leaves
cond unchanged. -/
def Obligations.OnlyFlagSettersChangeCond : Prop :=
  ∀ (i : Instr) (s t : State), exec i s = .next t → t.cond ≠ s.cond →
    (∃ a b c u, i = .addReg a b c u) ∨ (∃ a b m, i = .addImm a b m) ∨ (∃ a b c u, i = .andReg a b c u) ∨
    (∃ a b m, i = .andImm a b m) ∨ (∃ a b u, i = .notReg a b u) ∨ (∃ a o, i = .ld a o) ∨
    (∃ a o, i = .ldi a o) ∨ (∃ a b o, i = .ldr a b o) ∨ (∃ a o, i = .lea a o) ∨ (∃ u, i = .trapGetc u) ∨
    (∃ u, i = .trapIn u)

/-! ### Operate instructions -/

/-- 40_operate.md R160: ADD, register mode, for every word of its format. -/
def Obligations.AddRegisterWritesTheSum : Prop :=
  ∀ (dr sr1 sr2 : Reg) (u : BitVec 2) (s : State),
    decode (0b0001#4 ++ dr.bits ++ sr1.bits ++ 0#1 ++ u ++ sr2.bits) = .addReg dr sr1 sr2 u ∧
    ∃ t, exec (.addReg dr sr1 sr2 u) s = .next t ∧
      (readReg t dr).toNat = ((readReg s sr1).toNat + (readReg s sr2).toNat) % 65536 ∧
      CondReads t.cond (readReg t dr) ∧ OnlyRegAndCond s t dr

/-- 40_operate.md R161: ADD, immediate mode, for every word of its format. -/
def Obligations.AddImmediateWritesTheSum : Prop :=
  ∀ (dr sr1 : Reg) (imm : BitVec 5) (s : State),
    decode (0b0001#4 ++ dr.bits ++ sr1.bits ++ 1#1 ++ imm) = .addImm dr sr1 imm ∧
    ∃ t, exec (.addImm dr sr1 imm) s = .next t ∧ IsSum (readReg t dr) (readReg s sr1) imm.toInt ∧
      CondReads t.cond (readReg t dr) ∧ OnlyRegAndCond s t dr

/-- 40_operate.md R163: AND, register mode, for every word of its format. -/
def Obligations.AndRegisterWritesTheConjunction : Prop :=
  ∀ (dr sr1 sr2 : Reg) (u : BitVec 2) (s : State),
    decode (0b0101#4 ++ dr.bits ++ sr1.bits ++ 0#1 ++ u ++ sr2.bits) = .andReg dr sr1 sr2 u ∧
    ∃ t, exec (.andReg dr sr1 sr2 u) s = .next t ∧
      (∀ i, (readReg t dr).getLsbD i = ((readReg s sr1).getLsbD i && (readReg s sr2).getLsbD i)) ∧
      CondReads t.cond (readReg t dr) ∧ OnlyRegAndCond s t dr

/-- AND, immediate mode (40_operate.md R164): imm5 is sign-extended before the AND, and imm5 = 0 gives 0x0000
for every value of the source. That no read of the source can fault is the model's choice (log 1). -/
def Obligations.AndImmediateWritesTheConjunction : Prop :=
  ∀ (dr sr1 : Reg) (imm : BitVec 5) (s : State),
    decode (0b0101#4 ++ dr.bits ++ sr1.bits ++ 1#1 ++ imm) = .andImm dr sr1 imm ∧
    ∃ t, exec (.andImm dr sr1 imm) s = .next t ∧
      (∀ i, (readReg t dr).getLsbD i =
        ((readReg s sr1).getLsbD i && if i < 5 then imm.getLsbD i else imm.getLsbD 4)) ∧
      (imm = 0 → readReg t dr = 0x0000 ∧ t.cond = .z) ∧
      CondReads t.cond (readReg t dr) ∧ OnlyRegAndCond s t dr

/-- 40_operate.md R166: NOT, for every word of its format. -/
def Obligations.NotWritesTheComplement : Prop :=
  ∀ (dr sr : Reg) (u : BitVec 6) (s : State),
    decode (0b1001#4 ++ dr.bits ++ sr.bits ++ u) = .notReg dr sr u ∧
    ∃ t, exec (.notReg dr sr u) s = .next t ∧ (readReg t dr).toNat = 65535 - (readReg s sr).toNat ∧
      CondReads t.cond (readReg t dr) ∧ OnlyRegAndCond s t dr

/-! ### Control transfer -/

/-- 41_control.md R200: BR, for every word of its format. -/
def Obligations.BranchGoesToItsTargetOrOn : Prop :=
  ∀ (nzp : BitVec 3) (offset : BitVec 9) (s : State),
    decode (0b0000#4 ++ nzp ++ offset) = .br nzp offset ∧
    ∃ t, exec (.br nzp offset) s = .next t ∧
      (if (nzp.getLsbD 2 = true ∧ s.cond = .n) ∨ (nzp.getLsbD 1 = true ∧ s.cond = .z) ∨
          (nzp.getLsbD 0 = true ∧ s.cond = .p) then IsSum t.pc s.pc offset.toInt
        else t.pc = s.pc) ∧
      OnlyPc s t

/-- 41_control.md R201, R202: JMP, for every word of its format; 0xC1C0 (RET) is JMP R7. -/
def Obligations.JumpGoesToTheBaseRegister : Prop :=
  ∀ (base : Reg) (h : BitVec 3) (l : BitVec 6) (s : State),
    decode (0b1100#4 ++ h ++ base.bits ++ l) = .jmp base h l ∧ decode 0xC1C0 = .jmp .r7 0 0 ∧
    ∃ t, exec (.jmp base h l) s = .next t ∧ t.pc = readReg s base ∧ OnlyPc s t

/-- 41_control.md R203: JSR, for every word of its format. -/
def Obligations.JumpSubroutineLinksAndJumps : Prop :=
  ∀ (offset : BitVec 11) (s : State),
    decode (0b0100#4 ++ 1#1 ++ offset) = .jsr offset ∧
    ∃ t, exec (.jsr offset) s = .next t ∧ readReg t .r7 = s.pc ∧ IsSum t.pc s.pc offset.toInt ∧
      OnlyPcAndLink s t

/-- JSRR (41_control.md R204), for every word of its format. That BaseR = R7 reads the link just written is the
spec's own decision (92_eei_decisions.md D5, log 15). -/
def Obligations.JumpSubroutineRegisterLinksThenReads : Prop :=
  ∀ (base : Reg) (h : BitVec 2) (l : BitVec 6) (s : State),
    decode (0b0100#4 ++ 0#1 ++ h ++ base.bits ++ l) = .jsrr base h l ∧
    ∃ t, exec (.jsrr base h l) s = .next t ∧ readReg t .r7 = s.pc ∧
      t.pc = (if base = .r7 then s.pc else readReg s base) ∧ OnlyPcAndLink s t

/-! ### Loads, stores, LEA -/

/-- 42_load_store.md R240: LD, for every word of its format; away from KBSR_ADDR the read changes nothing, and
a load from KBSR_ADDR gives 0x8000 or 0x0000. -/
def Obligations.LoadReadsThroughTheBridge : Prop :=
  ∀ (dr : Reg) (offset : BitVec 9) (s : State),
    decode (0b0010#4 ++ dr.bits ++ offset) = .ld dr offset ∧
    ∃ t, exec (.ld dr offset) s = .next t ∧
      LoadResult s (memRead s (pcRelative s offset)).2 t dr (memRead s (pcRelative s offset)).1 ∧
      (pcRelative s offset ≠ 0xFE00 → LoadResult s s t dr (memWord s (pcRelative s offset))) ∧
      (pcRelative s offset = 0xFE00 → readReg t dr = 0x8000 ∨ readReg t dr = 0x0000)

/-- 42_load_store.md R241: LDI, for every word of its format: the pointer read, then the data read, both
through the bridge. -/
def Obligations.LoadIndirectReadsTwice : Prop :=
  ∀ (dr : Reg) (offset : BitVec 9) (s : State),
    decode (0b1010#4 ++ dr.bits ++ offset) = .ldi dr offset ∧
    ∃ t, exec (.ldi dr offset) s = .next t ∧
      LoadResult s (memRead (memRead s (pcRelative s offset)).2 (memRead s (pcRelative s offset)).1).2 t dr
        (memRead (memRead s (pcRelative s offset)).2 (memRead s (pcRelative s offset)).1).1 ∧
      (pcRelative s offset ≠ 0xFE00 → memWord s (pcRelative s offset) ≠ 0xFE00 →
        LoadResult s s t dr (memWord s (memWord s (pcRelative s offset))))

/-- 42_load_store.md R242: LDR, for every word of its format. -/
def Obligations.LoadRegisterReadsThroughTheBridge : Prop :=
  ∀ (dr base : Reg) (offset : BitVec 6) (s : State),
    decode (0b0110#4 ++ dr.bits ++ base.bits ++ offset) = .ldr dr base offset ∧
    ∃ t, exec (.ldr dr base offset) s = .next t ∧
      LoadResult s (memRead s (baseOffset s base offset)).2 t dr (memRead s (baseOffset s base offset)).1 ∧
      (baseOffset s base offset ≠ 0xFE00 → LoadResult s s t dr (memWord s (baseOffset s base offset)))

/-- 42_load_store.md R243: LEA, for every word of its format: no memory access, and the flags are set. -/
def Obligations.LoadEffectiveAddressSetsFlags : Prop :=
  ∀ (dr : Reg) (offset : BitVec 9) (s : State),
    decode (0b1110#4 ++ dr.bits ++ offset) = .lea dr offset ∧
    ∃ t, exec (.lea dr offset) s = .next t ∧ IsSum (readReg t dr) s.pc offset.toInt ∧
      CondReads t.cond (readReg t dr) ∧ OnlyRegAndCond s t dr

/-- 42_load_store.md R244: ST, for every word of its format. -/
def Obligations.StoreWritesOneWord : Prop :=
  ∀ (sr : Reg) (offset : BitVec 9) (s : State),
    decode (0b0011#4 ++ sr.bits ++ offset) = .st sr offset ∧
    ∃ t, exec (.st sr offset) s = .next t ∧ memWord t (pcRelative s offset) = readReg s sr ∧
      OnlyWordAt s t (pcRelative s offset)

/-- STI (42_load_store.md R245), for every word of its format. That the pointer read goes through the keyboard
interception is the spec's own decision (92_eei_decisions.md D9, log 15). -/
def Obligations.StoreIndirectWritesThroughThePointer : Prop :=
  ∀ (sr : Reg) (offset : BitVec 9) (s : State),
    decode (0b1011#4 ++ sr.bits ++ offset) = .sti sr offset ∧
    ∃ t, exec (.sti sr offset) s = .next t ∧
      memWord t (memRead s (pcRelative s offset)).1 = readReg s sr ∧
      OnlyWordAt (memRead s (pcRelative s offset)).2 t (memRead s (pcRelative s offset)).1 ∧
      SameRegs s t ∧ t.pc = s.pc ∧ t.cond = s.cond ∧ SameRun s t ∧ SameOutside s t ∧
      (pcRelative s offset ≠ 0xFE00 → memWord t (memWord s (pcRelative s offset)) = readReg s sr ∧
        OnlyWordAt s t (memWord s (pcRelative s offset)))

/-- 42_load_store.md R246: STR, for every word of its format. -/
def Obligations.StoreRegisterWritesOneWord : Prop :=
  ∀ (sr base : Reg) (offset : BitVec 6) (s : State),
    decode (0b0111#4 ++ sr.bits ++ base.bits ++ offset) = .str sr base offset ∧
    ∃ t, exec (.str sr base offset) s = .next t ∧ memWord t (baseOffset s base offset) = readReg s sr ∧
      OnlyWordAt s t (baseOffset s base offset)

/-- A store into the word the next fetch reads is seen by that fetch (20_memory.md R100, derived there); at
KBSR_ADDR the fetch polls instead. -/
def Obligations.StoreIsSeenByTheNextFetch : Prop :=
  ∀ (sr : Reg) (s : State), s.pc ≠ 0xFE00 →
    ∃ t, exec (.st sr 0) s = .next t ∧ fetch t = (readReg s sr, setPc t (s.pc + 1))

/-! ### Memory and the keyboard bridge -/

/-- A write stores its word at every address, the keyboard's included, with no side effect (00_scope.md R17,
20_memory.md R90). A word written to KBSR_ADDR lasts until the next read of KBSR_ADDR overwrites it, one written to
KBDR_ADDR until a poll that finds a byte overwrites it; what such a poll writes there is the spec's decisions D10
and D23 (20_memory.md R89, log 15), over the model's list of the host's answers (log 6). -/
def Obligations.WritesArePlainStores : Prop :=
  ∀ (s : State) (a v : Word),
    memWord (memWrite s a v) a = v ∧ OnlyWordAt s (memWrite s a v) a ∧
    (∀ b, b ≠ 0xFE00 → memWord (memRead (memWrite s a v) b).2 a = v) ∧
    (memWord (memRead (memWrite s 0xFE00 v) 0xFE00).2 0xFE00 = 0x8000 ∨
      memWord (memRead (memWrite s 0xFE00 v) 0xFE00).2 0xFE00 = 0x0000) ∧
    (NoByteYet s → memWord (memRead (memWrite s 0xFE02 v) 0xFE00).2 0xFE02 = v) ∧
    (∀ c, HasByte s c → memWord (memRead (memWrite s 0xFE02 v) 0xFE00).2 0xFE02 = zext16 c)

/-- A read of any address but KBSR_ADDR returns the stored word and changes nothing, KBDR_ADDR included
(20_memory.md R86, R91). -/
def Obligations.OrdinaryReadsChangeNothing : Prop :=
  ∀ (s : State) (a : Word), a ≠ 0xFE00 → memRead s a = (memWord s a, s)

/-- A read of KBSR_ADDR polls (20_memory.md R89, with the spec's decisions D10, D11 and D23, log 6): with a byte
there KBSR reads 0x8000 and KBDR takes the byte, else KBSR reads 0x0000; one answer of the host is used up and
nothing else changes. -/
def Obligations.KeyboardStatusReadPolls : Prop :=
  ∀ (s : State),
    (∀ c, HasByte s c →
      (memRead s 0xFE00).1 = 0x8000 ∧ memWord (memRead s 0xFE00).2 0xFE00 = 0x8000 ∧
      ((memWord (memRead s 0xFE00).2 0xFE02).toNat = c.toNat) ∧
      (∀ a, a ≠ 0xFE00 → a ≠ 0xFE02 → memWord (memRead s 0xFE00).2 a = memWord s a)) ∧
    (NoByteYet s →
      (memRead s 0xFE00).1 = 0x0000 ∧ memWord (memRead s 0xFE00).2 0xFE00 = 0x0000 ∧
      (∀ a, a ≠ 0xFE00 → memWord (memRead s 0xFE00).2 a = memWord s a)) ∧
    AnswersTaken 1 s (memRead s 0xFE00).2 ∧
    SameRegs s (memRead s 0xFE00).2 ∧ (memRead s 0xFE00).2.pc = s.pc ∧ (memRead s 0xFE00).2.cond = s.cond ∧
    SameRun s (memRead s 0xFE00).2 ∧ SameOutside s (memRead s 0xFE00).2

/-- The end of the host input (43_trap.md R292, OPEN parameter P_EOF, log 10; the state in which it has ended is the
model's form, log 6), for each of its two values. Hold: a poll finds nothing, GETC holds, and IN writes its prompt
and holds; the form of the hold, a service in progress, is the model's (log 7). Deliver: a poll finds the word 0xFFFF,
GETC and IN deliver it with cond N, and IN's echo is the byte 0xFF. IN's prompt is an OPEN parameter (log 11), and IN
is stated with no external interrupt to come (log 8). -/
def Obligations.EndOfInputFollowsTheParameter : Prop :=
  ∀ (u : BitVec 4) (s : State), s.input = [] → s.inputTail = .ended →
    match Config.endOfInput with
    | .hold =>
      (memRead s 0xFE00).1 = 0x0000 ∧ SameInput s (memRead s 0xFE00).2 ∧
        exec (.trapGetc u) s = .next { s with pending := some .getc } ∧
        (s.interruptIn = none → exec (.trapIn u) s =
          .next { s with output := s.output ++ Config.inPrompt.map .byte, pending := some .inRead })
    | .deliver =>
      (memRead s 0xFE00).1 = 0x8000 ∧ memWord (memRead s 0xFE00).2 0xFE02 = 0xFFFF ∧
        SameInput s (memRead s 0xFE00).2 ∧
        (∃ t, exec (.trapGetc u) s = .next t ∧ readReg t .r0 = 0xFFFF ∧ t.cond = .n ∧ SameRegsBut s t .r0 ∧
          t.pc = s.pc ∧ SameMemory s t ∧ SameRun s t ∧ SameInput s t ∧ t.output = s.output ∧
          t.interruptIn = s.interruptIn ∧ t.pending = none) ∧
        (s.interruptIn = none →
          ∃ t, exec (.trapIn u) s = .next t ∧ readReg t .r0 = 0xFFFF ∧ t.cond = .n ∧ SameRegsBut s t .r0 ∧
            t.pc = s.pc ∧ SameMemory s t ∧ SameRun s t ∧ SameInput s t ∧
            t.output = s.output ++ Config.inPrompt.map .byte ++ [.byte 0xFF, .flush] ∧
            t.interruptIn = none ∧ t.pending = none)

/-! ### Trap services -/

/-- GETC (43_trap.md R283): with a byte there it is delivered; with none the step holds, which the model writes as
a service in progress (log 7). -/
def Obligations.GetcDeliversTheByteOrHolds : Prop :=
  ∀ (u : BitVec 4) (s : State),
    decode (0b1111#4 ++ u ++ 0x20#8) = .trapGetc u ∧
    (∀ c, HasByte s c →
      ∃ t, exec (.trapGetc u) s = .next t ∧ (readReg t .r0).toNat = c.toNat ∧
        t.cond = (if c = 0x00 then .z else .p) ∧ SameRegsBut s t .r0 ∧ t.pc = s.pc ∧ SameMemory s t ∧
        SameRun s t ∧ AnswersTaken 1 s t ∧ t.output = s.output ∧ t.interruptIn = s.interruptIn ∧
        t.pending = none) ∧
    (NoByteYet s →
      ∃ t, exec (.trapGetc u) s = .next t ∧ SameProgramState s t ∧ SameRun s t ∧ AnswersTaken 1 s t ∧
        t.output = s.output ∧ t.interruptIn = s.interruptIn ∧ t.pending = some .getc)

/-- 43_trap.md R284: OUT writes bits 7:0 of x[0] and flushes. -/
def Obligations.OutWritesTheLowByte : Prop :=
  ∀ (u : BitVec 4) (s : State),
    decode (0b1111#4 ++ u ++ 0x21#8) = .trapOut u ∧
    ∃ t, exec (.trapOut u) s = .next t ∧
      t.output = s.output ++ [.byte ((readReg s .r0).setWidth 8), .flush] ∧
      SameProgramState s t ∧ SameRun s t ∧ SameInput s t ∧ t.interruptIn = s.interruptIn ∧
      t.pending = s.pending

/-- PUTS (43_trap.md R285) of a string that does not run through KBSR_ADDR, with no external interrupt before its
end (log 8): the low bytes of its words up to the first zero word, then the flush; the address wraps (R288). -/
def Obligations.PutsWritesTheString : Prop :=
  ∀ (u : BitVec 4) (s : State) (n : Nat),
    decode (0b1111#4 ++ u ++ 0x22#8) = .trapPuts u ∧
    (NoInterruptWithin s n → StringAt s (readReg s .r0) n →
      ∃ t, exec (.trapPuts u) s = .next t ∧
        t.output = s.output ++ (List.range n).flatMap (fun k => putsEvents (stringWord s (readReg s .r0) k)) ++
          [.flush] ∧
        SameProgramState s t ∧ SameRun s t ∧ SameInput s t ∧ StopPointsPassed n s t ∧ t.pending = none)

/-- PUTSP (43_trap.md R287) of a string that does not run through KBSR_ADDR, with no external interrupt before its
end (log 8): for each word its low byte, then its high byte if not 0x00; then the flush. -/
def Obligations.PutspWritesThePackedString : Prop :=
  ∀ (u : BitVec 4) (s : State) (n : Nat) (bytes : List OutputEvent),
    decode (0b1111#4 ++ u ++ 0x24#8) = .trapPutsp u ∧
    (bytes = (List.range n).flatMap (fun k => putspEvents (stringWord s (readReg s .r0) k)) →
      NoInterruptWithin s bytes.length → StringAt s (readReg s .r0) n →
      ∃ t, exec (.trapPutsp u) s = .next t ∧ t.output = s.output ++ bytes ++ [.flush] ∧
        SameProgramState s t ∧ SameRun s t ∧ SameInput s t ∧ StopPointsPassed bytes.length s t ∧
        t.pending = none)

/-- A string, of PUTS or of PUTSP, that runs into KBSR_ADDR polls there, and with no byte there it ends (43_trap.md
R288 with the spec's decision D9, log 15); no external interrupt to come. -/
def Obligations.StringEndsAtAnEmptyKeyboard : Prop :=
  ∀ (v : StringService) (u : BitVec 4) (s : State) (n : Nat), s.interruptIn = none → NoByteYet s → n < 65536 →
    readReg s .r0 + BitVec.ofNat 16 n = 0xFE00 →
    (∀ k < n, stringWord s (readReg s .r0) k ≠ 0x0000) →
      ∃ t, exec (v.instr u) s = .next t ∧
        t.output = s.output ++ v.output s (readReg s .r0) n ++ [.flush] ∧
        memWord t 0xFE00 = 0x0000 ∧ SameMemoryBut s t 0xFE00 ∧ SameRegs s t ∧ t.pc = s.pc ∧
        t.cond = s.cond ∧ SameRun s t ∧ AnswersTaken 1 s t ∧ t.interruptIn = none ∧ t.pending = none

/-- A string, of PUTS or of PUTSP, that runs through KBSR_ADDR with a byte there reads the word 0x8000 there: PUTS
writes 0x00, PUTSP writes 0x00 and 0x80, and the string goes on at 0xFE01 in the memory the poll leaves (43_trap.md
R288, 95_test_vectors.md V-TR10, with the spec's decision D9, log 15); no external interrupt to come. -/
def Obligations.StringGoesOnThroughTheKeyboard : Prop :=
  ∀ (v : StringService) (u : BitVec 4) (s : State) (n m : Nat) (c : Byte), s.interruptIn = none → HasByte s c →
    n + m + 1 < 65536 → readReg s .r0 + BitVec.ofNat 16 n = 0xFE00 →
    (∀ k < n, stringWord s (readReg s .r0) k ≠ 0x0000) →
    (∀ k < m, stringWord (memRead s 0xFE00).2 0xFE01 k ≠ 0x0000) →
    stringWord (memRead s 0xFE00).2 0xFE01 m = 0x0000 →
      ∃ t, exec (v.instr u) s = .next t ∧
        t.output = s.output ++ v.output s (readReg s .r0) n ++
          (match v with
            | .puts => [.byte 0x00]
            | .putsp => [.byte 0x00, .byte 0x80]) ++
          v.output (memRead s 0xFE00).2 0xFE01 m ++ [.flush] ∧
        memWord t 0xFE00 = 0x8000 ∧ memWord t 0xFE02 = zext16 c ∧
        (∀ a, a ≠ 0xFE00 → a ≠ 0xFE02 → memWord t a = memWord s a) ∧ SameRegs s t ∧ t.pc = s.pc ∧
        t.cond = s.cond ∧ SameRun s t ∧ AnswersTaken 1 s t ∧ t.interruptIn = none ∧ t.pending = none

/-- A string without a zero word is never cut short (70_reset_and_hazards.md R423; the form is the model's choice,
log 9). Of PUTS or PUTSP, with every word of memory nonzero and a byte other than 0x00 for the one poll at
KBSR_ADDR: the step writes the bytes of 65536 words, no flush, and leaves the service in progress at its first word,
memory still without a zero word. And from then on it goes on for ever under a host whose input never ends: each
step of an endless string (`Endless`) leaves it endless, with as many bytes more. -/
def Obligations.EndlessStringNeverEnds : Prop :=
  ∀ (v : StringService) (s : State),
    (∀ (u : BitVec 4) (c : Byte), s.interruptIn = none → HasByte s c → c ≠ 0x00 → (∀ a, memWord s a ≠ 0x0000) →
      ∃ (t : State) (bytes : List Byte), exec (v.instr u) s = .next t ∧
        t.pending = some (v.pending (readReg s .r0)) ∧ (∀ a, memWord t a ≠ 0x0000) ∧
        65536 ≤ bytes.length ∧ (v = .puts → bytes.length = 65536) ∧ t.output = s.output ++ bytes.map .byte ∧
        AnswersTaken 1 s t ∧ SameRegs s t ∧ t.pc = s.pc ∧ t.cond = s.cond ∧ SameRun s t ∧
        t.interruptIn = none) ∧
    (∀ a, Endless v a s →
      ∃ (t : State) (bytes : List Byte), step s = .next t ∧ Endless v a t ∧
        65536 ≤ bytes.length ∧ (v = .puts → bytes.length = 65536) ∧ t.output = s.output ++ bytes.map .byte ∧
        AnswersTaken 1 s t ∧ SameRegs s t ∧ t.pc = s.pc ∧ t.cond = s.cond)

/-- IN (43_trap.md R286; the order is the spec's decision D15, the prompt an OPEN parameter, log 11, the hold the
model's, log 7), with no external interrupt before its end (log 8): prompt, read, echo, flush, x[0], setcc(0). -/
def Obligations.InPromptsReadsAndEchoes : Prop :=
  ∀ (u : BitVec 4) (s : State),
    decode (0b1111#4 ++ u ++ 0x23#8) = .trapIn u ∧
    (∀ c, HasByte s c → NoInterruptWithin s (Config.inPrompt.length + 1) →
      ∃ t, exec (.trapIn u) s = .next t ∧ (readReg t .r0).toNat = c.toNat ∧
        t.cond = (if c = 0x00 then .z else .p) ∧ SameRegsBut s t .r0 ∧ t.pc = s.pc ∧ SameMemory s t ∧
        SameRun s t ∧ AnswersTaken 1 s t ∧
        t.output = s.output ++ Config.inPrompt.map .byte ++ [.byte c, .flush] ∧
        StopPointsPassed (Config.inPrompt.length + 1) s t ∧ t.pending = none) ∧
    (NoByteYet s → NoInterruptWithin s Config.inPrompt.length →
      ∃ t, exec (.trapIn u) s = .next t ∧ SameProgramState s t ∧ SameRun s t ∧ AnswersTaken 1 s t ∧
        t.output = s.output ++ Config.inPrompt.map .byte ∧
        StopPointsPassed Config.inPrompt.length s t ∧ t.pending = some .inRead)

/-- HALT (43_trap.md R290, 10_state.md R62), with no external interrupt before its end (log 8), writes the notice,
flushes and ends the run; nothing is executed after it, which the model writes as a step that changes nothing
(log 13). -/
def Obligations.HaltEndsTheRunAfterItsNotice : Prop :=
  ∀ (u : BitVec 4) (s : State),
    decode (0b1111#4 ++ u ++ 0x25#8) = .trapHalt u ∧
    (NoInterruptWithin s Config.haltNotice.length →
      ∃ t, exec (.trapHalt u) s = .next t ∧ t.run = .halted .halt ∧ t.fault = s.fault ∧
        t.output = s.output ++ Config.haltNotice.map .byte ++ [.flush] ∧ SameProgramState s t ∧
        SameInput s t ∧ StopPointsPassed Config.haltNotice.length s t ∧ t.pending = s.pending ∧
        step t = .next t)

/-- A trap service writes no x[7], no register but R0, no pc and no fault record; only GETC and IN write R0 and cond;
and with no external interrupt to come every service but HALT leaves run as it is (43_trap.md R282 with the spec's decision D6, log 15). -/
def Obligations.TrapServicesLinkNothing : Prop :=
  ∀ (u : BitVec 4) (s t : State) (i : Instr),
    i = .trapGetc u ∨ i = .trapOut u ∨ i = .trapPuts u ∨ i = .trapIn u ∨ i = .trapPutsp u ∨ i = .trapHalt u →
    exec i s = .next t →
      SameRegsBut s t .r0 ∧ t.pc = s.pc ∧ t.fault = s.fault ∧
      (i ≠ .trapGetc u → i ≠ .trapIn u → SameRegs s t ∧ t.cond = s.cond) ∧
      (s.interruptIn = none → i ≠ .trapHalt u → t.run = s.run)

/-! ### Faults -/

/-- 44_illegal.md R330, R331, R332: RTI and RES, for every word of them, take the fault IllegalOpcode: run and
fault are written, with the word and the address pc - 1, and nothing else changes. -/
def Obligations.IllegalOpcodesEndTheRun : Prop :=
  ∀ (u : BitVec 12) (s : State),
    decode (0b1000#4 ++ u) = .rti u ∧ decode (0b1101#4 ++ u) = .res u ∧
    (∃ t, exec (.rti u) s = .next t ∧ t.run = .halted .illegalOpcode ∧
      t.fault = some ⟨.illegalOpcode, 0b1000#4 ++ u, s.pc - 1⟩ ∧
      SameProgramState s t ∧ SameInput s t ∧ SameOutside s t) ∧
    ∃ t, exec (.res u) s = .next t ∧ t.run = .halted .illegalOpcode ∧
      t.fault = some ⟨.illegalOpcode, 0b1101#4 ++ u, s.pc - 1⟩ ∧
      SameProgramState s t ∧ SameInput s t ∧ SameOutside s t

/-- 43_trap.md R291: TRAP with any vector outside 0x20 .. 0x25 takes the fault UnknownTrap. -/
def Obligations.UnknownTrapsEndTheRun : Prop :=
  ∀ (u : BitVec 4) (v : BitVec 8) (s : State), v.toNat < 0x20 ∨ 0x25 < v.toNat →
    decode (0b1111#4 ++ u ++ v) = .trapUnknown u v ∧
    ∃ t, exec (.trapUnknown u v) s = .next t ∧ t.run = .halted .unknownTrap ∧
      t.fault = some ⟨.unknownTrap, 0b1111#4 ++ u ++ v, s.pc - 1⟩ ∧
      SameProgramState s t ∧ SameInput s t ∧ SameOutside s t

/-! ### The step -/

/-- 10_state.md R60: a step of a running machine, with no interrupt to come and no service in progress, is
exec of the instruction decoded from MemRead(pc), at the state after the read with pc + 1. Where the word at pc is
that of a well-formed instruction i and pc is not KBSR_ADDR, it is exec of i. -/
def Obligations.StepRunsTheDecodedInstruction : Prop :=
  ∀ (s : State), s.run = .running → s.pending = none → s.interruptIn = none →
    step s = exec (decode (memRead s s.pc).1) { (memRead s s.pc).2 with pc := s.pc + 1 } ∧
    ∀ i : Instr, i.wellFormed = true → s.pc ≠ 0xFE00 → memWord s s.pc = encode i →
      step s = exec i { s with pc := s.pc + 1 }

/-- What the step adds around exec is the MODEL'S OWN (log 7, log 8, log 9): with an interrupt still to come it
counts it down by one stop point, then does what it does without; with a service in progress it goes on with that
service and fetches nothing. A string service goes on at its address as it starts at x[0], GETC as it starts, IN
as after its prompt. -/
def Obligations.StepCountsStopPointsAndGoesOn : Prop :=
  ∀ (s : State), s.run = .running →
    (∀ n, s.interruptIn = some (n + 1) → s.pending = none →
      step s = exec (decode (memRead { s with interruptIn := some n } s.pc).1)
        { (memRead { s with interruptIn := some n } s.pc).2 with pc := s.pc + 1 }) ∧
    (∀ n service, s.interruptIn = some (n + 1) → s.pending = some service →
      step s = .next (resume service { s with interruptIn := some n })) ∧
    (∀ service, s.interruptIn = none → s.pending = some service → step s = .next (resume service s)) ∧
    ∀ u : BitVec 4,
      (∀ v : StringService, exec (v.instr u) s = .next (resume (v.pending (readReg s .r0)) s)) ∧
      exec (.trapGetc u) s = .next (resume .getc s) ∧
      (s.interruptIn = none → exec (.trapIn u) s =
        .next (resume .inRead { s with output := s.output ++ Config.inPrompt.map .byte }))

/-- A halted machine takes no step (10_state.md R56: HALTED is terminal); the model writes that as a step that
changes nothing (log 13). -/
def Obligations.HaltedIsTerminal : Prop :=
  ∀ (s : State) (reason : HaltReason), s.run = .halted reason →
    step s = .next s

/-- A fetch at KBSR_ADDR polls (20_memory.md R93, derived there): with a byte there it reads 0x8000, which is RTI and
faults at 0xFE00; with none it reads 0x0000, a BR that never branches. -/
def Obligations.FetchAtKeyboardStatus : Prop :=
  ∀ (s : State), s.run = .running → s.pending = none → s.interruptIn = none → s.pc = 0xFE00 →
    (∀ c, HasByte s c →
      ∃ t, step s = .next t ∧ t.run = .halted .illegalOpcode ∧
        t.fault = some ⟨.illegalOpcode, 0x8000, 0xFE00⟩ ∧ t.pc = 0xFE01 ∧ memWord t 0xFE02 = zext16 c ∧
        SameRegs s t ∧ t.cond = s.cond ∧ AnswersTaken 1 s t) ∧
    (NoByteYet s →
      ∃ t, step s = .next t ∧ t.pc = 0xFE01 ∧ memWord t 0xFE00 = 0x0000 ∧ SameMemoryBut s t 0xFE00 ∧
        SameRegs s t ∧ t.cond = s.cond ∧ SameRun s t ∧ AnswersTaken 1 s t)

/-- A hold is lifted by the host supplying a byte (60_exceptions.md R365; the form is the model's, log 7): the held
GETC or IN then completes, register, flags and all (43_trap.md R283, R286), with no second fetch and no second
prompt. While no byte is there it stays held, and nothing changes but that one answer of the host is used up. -/
def Obligations.HeldReadsGoOnWithAByte : Prop :=
  ∀ (s : State), s.run = .running → s.interruptIn = none →
    (∀ c, HasByte s c →
      (s.pending = some .getc →
        ∃ t, step s = .next t ∧ (readReg t .r0).toNat = c.toNat ∧ t.cond = (if c = 0x00 then .z else .p) ∧
          SameRegsBut s t .r0 ∧ t.pc = s.pc ∧ SameMemory s t ∧ SameRun s t ∧ AnswersTaken 1 s t ∧
          t.output = s.output ∧ t.interruptIn = none ∧ t.pending = none) ∧
      (s.pending = some .inRead →
        ∃ t, step s = .next t ∧ (readReg t .r0).toNat = c.toNat ∧ t.cond = (if c = 0x00 then .z else .p) ∧
          SameRegsBut s t .r0 ∧ t.pc = s.pc ∧ SameMemory s t ∧ SameRun s t ∧ AnswersTaken 1 s t ∧
          t.output = s.output ++ [.byte c, .flush] ∧ t.interruptIn = none ∧ t.pending = none)) ∧
    (NoByteYet s → s.pending = some .getc ∨ s.pending = some .inRead →
      ∃ t, step s = .next t ∧ SameProgramState s t ∧ SameRun s t ∧ AnswersTaken 1 s t ∧ SameOutside s t)

/-! ### The external interrupt -/

/-- The external interrupt between two steps, or while a step holds (60_exceptions.md R356, R357 with the spec's
decision D18; its time is the model's count, log 8): the run ends with ExternalInterrupt, nothing is fetched, no
fault is recorded and nothing else changes. -/
def Obligations.InterruptEndsTheRunBeforeTheNextFetch : Prop :=
  ∀ (s : State), s.run = .running → s.interruptIn = some 0 →
    ∃ t, step s = .next t ∧ t.run = .halted .externalInterrupt ∧ t.fault = s.fault ∧
      SameProgramState s t ∧ SameInput s t ∧ t.output = s.output ∧ t.pending = none

/-- The external interrupt between two host-output events of PUTS, PUTSP, IN or HALT (60_exceptions.md R357 (c), decision
D18, log 8): the host has received exactly the bytes up to that point, and nothing else of the step happens. For
the strings of PUTS and PUTSP; for any text, and so for the prompt of IN and the notice of HALT, whose bytes are
OPEN parameters (log 11); and for the echo of IN, after which x[0] and cond are not yet written. -/
def Obligations.InterruptCutsOutputAfterAByte : Prop :=
  (∀ (v : StringService) (u : BitVec 4) (s : State) (n k : Nat), StringAt s (readReg s .r0) n →
    s.interruptIn = some k → k < (v.output s (readReg s .r0) n).length →
      ∃ t, exec (v.instr u) s = .next t ∧ t.run = .halted .externalInterrupt ∧ t.fault = s.fault ∧
        t.output = s.output ++ (v.output s (readReg s .r0) n).take (k + 1) ∧
        SameProgramState s t ∧ SameInput s t ∧ t.pending = none) ∧
  (∀ (s : State) (text : List Byte) (rest : State → State) (k : Nat), s.interruptIn = some k → k < text.length →
    (hostWriteText s text rest).run = .halted .externalInterrupt ∧
      (hostWriteText s text rest).fault = s.fault ∧
      (hostWriteText s text rest).output = s.output ++ (text.take (k + 1)).map .byte ∧
      SameProgramState s (hostWriteText s text rest) ∧ SameInput s (hostWriteText s text rest) ∧
      (hostWriteText s text rest).pending = none) ∧
  (∀ (u : BitVec 4) (s : State),
    exec (.trapIn u) s = .next (hostWriteText s Config.inPrompt inRead) ∧
      exec (.trapHalt u) s = .next (hostWriteText s Config.haltNotice fun t => haltRun (hostFlush t) .halt)) ∧
  ∀ (u : BitVec 4) (s : State) (c : Byte), HasByte s c → s.interruptIn = some Config.inPrompt.length →
    ∃ t, exec (.trapIn u) s = .next t ∧ t.run = .halted .externalInterrupt ∧ t.fault = s.fault ∧
      t.output = s.output ++ Config.inPrompt.map .byte ++ [.byte c] ∧ SameProgramState s t ∧
      AnswersTaken 1 s t ∧ t.pending = none

/-! ### Whole-machine rules -/

/-- The invariant of the machine (Safety.lean: canonical memory; the fault record fits the run state, with a word
that raises its cause; a service in progress only while running) is kept by every step of every state. -/
def Obligations.EveryStepKeepsTheInvariant : Prop :=
  ∀ s t : State, s.Inv → step s = .next t → t.Inv

/-- The invariant holds at reset, and after every image load over a canonical memory. -/
def Obligations.InvariantHoldsAtReset : Prop :=
  State.reset.Inv ∧ ∀ (m : Memory) (files : List (List Byte)) (s : State),
    Memory.wf m = true → boot m files = .ok s → s.Inv

/-- No step stops: from every state the step answers a next state (60_exceptions.md R350, 10_state.md R64: no
address, register or operand faults, and the CORE's own faults are taken; a held or halted step is the model's form,
log 7, log 13). -/
def Obligations.NoStepStops : Prop :=
  ∀ s : State, ∃ t, step s = .next t

/-- Host output is only ever appended to, and the host's answers are only ever used up in their order (20_memory.md
R97, in the model's form, log 6, log 12), by every step. -/
def Obligations.OutputGrowsAndInputIsTakenInOrder : Prop :=
  ∀ s t : State, step s = .next t →
    (∃ new, t.output = s.output ++ new) ∧ ∃ k, AnswersTaken k s t

/-- 10_state.md R41 (derived there): an instruction changes no register but its DR, R7 for JSR and JSRR, and R0 for
GETC and IN. -/
def Obligations.OnlyNamedRegistersAreWritten : Prop :=
  ∀ (i : Instr) (s t : State) (q : Reg), exec i s = .next t → readReg t q ≠ readReg s q →
    (∃ b c u, i = .addReg q b c u) ∨ (∃ b m, i = .addImm q b m) ∨ (∃ b c u, i = .andReg q b c u) ∨
    (∃ b m, i = .andImm q b m) ∨ (∃ b u, i = .notReg q b u) ∨ (∃ o, i = .ld q o) ∨ (∃ o, i = .ldi q o) ∨
    (∃ b o, i = .ldr q b o) ∨ (∃ o, i = .lea q o) ∨ (q = .r7 ∧ ∃ o, i = .jsr o) ∨
    (q = .r7 ∧ ∃ b h l, i = .jsrr b h l) ∨ (q = .r0 ∧ ∃ u, i = .trapGetc u) ∨
    (q = .r0 ∧ ∃ u, i = .trapIn u)

/-- 20_memory.md R82 (derived there): an instruction changes no word of memory but the one a store writes and, where
it reads memory at KBSR_ADDR, the two keyboard words. ADD, AND, NOT, LEA, BR, JMP, JSR, JSRR, RTI, RES and the
traps but PUTS and PUTSP change none. -/
def Obligations.OnlyStoresAndPollsChangeMemory : Prop :=
  ∀ (i : Instr) (s t : State) (a : Word), exec i s = .next t → memWord t a ≠ memWord s a →
    ((a = 0xFE00 ∨ a = 0xFE02) ∧
      ((∃ r o, i = .ld r o ∧ pcRelative s o = 0xFE00) ∨
        (∃ r b o, i = .ldr r b o ∧ baseOffset s b o = 0xFE00) ∨
        (∃ r o, i = .ldi r o ∧ (pcRelative s o = 0xFE00 ∨ (memRead s (pcRelative s o)).1 = 0xFE00)) ∨
        (∃ r o, i = .sti r o ∧ pcRelative s o = 0xFE00) ∨
        (∃ u, i = .trapPuts u) ∨ ∃ u, i = .trapPutsp u)) ∨
    (∃ r o, i = .st r o ∧ a = pcRelative s o) ∨
    (∃ r b o, i = .str r b o ∧ a = baseOffset s b o) ∨
    (∃ r o, i = .sti r o ∧ a = (memRead s (pcRelative s o)).1)
end

