-- ==== Sys2Proof/Laws/Decode.lean ====
section
/-! SUPPORT. Registers and opcodes against their numbers, and the fields of each format of
30_encoding.md R132. -/

namespace Sys2Proof

@[simp] theorem regOfBits_bits (r : Reg) : regOfBits r.bits = r := by cases r <;> rfl

@[simp] theorem bits_regOfBits (b : BitVec 3) : (regOfBits b).bits = b := by revert b; decide

@[simp] theorem opcodeOfBits_bits (op : Opcode) : opcodeOfBits op.bits = op := by cases op <;> rfl

@[simp] theorem bits_opcodeOfBits (b : BitVec 4) : (opcodeOfBits b).bits = b := by revert b; decide

/-- Bit `i` of a field is bit `low + i` of the word (00_scope.md R14). -/
theorem getLsbD_bitField (w : Word) (low len i : Nat) :
    (bitField w low len).getLsbD i = (decide (i < len) && w.getLsbD (low + i)) := by
  simp only [bitField, BitVec.getLsbD_extractLsb']

/-! ### Masked words -/

theorem and_opcode_mask (w : Word) : w &&& 0xF000#16 = (bitField w 12 4).setWidth 16 <<< 12 := by
  apply BitVec.eq_of_getLsbD_eq
  intro i hi
  interval_cases i <;> simp [bitField]

theorem and_mode_mask (w : Word) :
    w &&& 0xF020#16 = (bitField w 12 4).setWidth 16 <<< 12 ||| (bitField w 5 1).setWidth 16 <<< 5 := by
  apply BitVec.eq_of_getLsbD_eq
  intro i hi
  interval_cases i <;> simp [bitField]

theorem and_long_mask (w : Word) :
    w &&& 0xF800#16 = (bitField w 12 4).setWidth 16 <<< 12 ||| (bitField w 11 1).setWidth 16 <<< 11 := by
  apply BitVec.eq_of_getLsbD_eq
  intro i hi
  interval_cases i <;> simp [bitField]

theorem and_vector_mask (w : Word) :
    w &&& 0xF0FF#16 = (bitField w 12 4).setWidth 16 <<< 12 ||| (bitField w 0 8).setWidth 16 := by
  apply BitVec.eq_of_getLsbD_eq
  intro i hi
  interval_cases i <;> simp [bitField]

theorem bitField_one {w : Word} {i : Nat} {b : Bool} (h : w.getLsbD i = b) :
    bitField w i 1 = BitVec.ofBool b := by
  apply BitVec.eq_of_getLsbD_eq
  intro j hj
  obtain rfl : j = 0 := by omega
  cases b <;> simp_all [bitField]

/-! ### encodePc9 -/

@[simp] theorem encodePc9_opcode (op : Opcode) (r : Reg) (offset : BitVec 9) : bitField (encodePc9 op r offset) 12 4 = op.bits := by
  apply BitVec.eq_of_getLsbD_eq
  intro i hi
  change (BitVec.extractLsb' (n := 4 + 3 + 9) 12 4 (op.bits ++ r.bits ++ offset)).getLsbD i = (op.bits).getLsbD i
  simp only [BitVec.getLsbD_append, BitVec.getLsbD_extractLsb']
  interval_cases i <;> simp

@[simp] theorem encodePc9_dr (op : Opcode) (r : Reg) (offset : BitVec 9) : bitField (encodePc9 op r offset) 9 3 = r.bits := by
  apply BitVec.eq_of_getLsbD_eq
  intro i hi
  change (BitVec.extractLsb' (n := 4 + 3 + 9) 9 3 (op.bits ++ r.bits ++ offset)).getLsbD i = (r.bits).getLsbD i
  simp only [BitVec.getLsbD_append, BitVec.getLsbD_extractLsb']
  interval_cases i <;> simp

@[simp] theorem encodePc9_offset (op : Opcode) (r : Reg) (offset : BitVec 9) : bitField (encodePc9 op r offset) 0 9 = offset := by
  apply BitVec.eq_of_getLsbD_eq
  intro i hi
  change (BitVec.extractLsb' (n := 4 + 3 + 9) 0 9 (op.bits ++ r.bits ++ offset)).getLsbD i = (offset).getLsbD i
  simp only [BitVec.getLsbD_append, BitVec.getLsbD_extractLsb']
  interval_cases i <;> simp

/-! ### encodeBase6 -/

@[simp] theorem encodeBase6_opcode (op : Opcode) (r base : Reg) (offset : BitVec 6) : bitField (encodeBase6 op r base offset) 12 4 = op.bits := by
  apply BitVec.eq_of_getLsbD_eq
  intro i hi
  change (BitVec.extractLsb' (n := 4 + 3 + 3 + 6) 12 4 (op.bits ++ r.bits ++ base.bits ++ offset)).getLsbD i = (op.bits).getLsbD i
  simp only [BitVec.getLsbD_append, BitVec.getLsbD_extractLsb']
  interval_cases i <;> simp

@[simp] theorem encodeBase6_dr (op : Opcode) (r base : Reg) (offset : BitVec 6) : bitField (encodeBase6 op r base offset) 9 3 = r.bits := by
  apply BitVec.eq_of_getLsbD_eq
  intro i hi
  change (BitVec.extractLsb' (n := 4 + 3 + 3 + 6) 9 3 (op.bits ++ r.bits ++ base.bits ++ offset)).getLsbD i = (r.bits).getLsbD i
  simp only [BitVec.getLsbD_append, BitVec.getLsbD_extractLsb']
  interval_cases i <;> simp

@[simp] theorem encodeBase6_base (op : Opcode) (r base : Reg) (offset : BitVec 6) : bitField (encodeBase6 op r base offset) 6 3 = base.bits := by
  apply BitVec.eq_of_getLsbD_eq
  intro i hi
  change (BitVec.extractLsb' (n := 4 + 3 + 3 + 6) 6 3 (op.bits ++ r.bits ++ base.bits ++ offset)).getLsbD i = (base.bits).getLsbD i
  simp only [BitVec.getLsbD_append, BitVec.getLsbD_extractLsb']
  interval_cases i <;> simp

@[simp] theorem encodeBase6_offset (op : Opcode) (r base : Reg) (offset : BitVec 6) : bitField (encodeBase6 op r base offset) 0 6 = offset := by
  apply BitVec.eq_of_getLsbD_eq
  intro i hi
  change (BitVec.extractLsb' (n := 4 + 3 + 3 + 6) 0 6 (op.bits ++ r.bits ++ base.bits ++ offset)).getLsbD i = (offset).getLsbD i
  simp only [BitVec.getLsbD_append, BitVec.getLsbD_extractLsb']
  interval_cases i <;> simp

/-! ### encodeOpr -/

@[simp] theorem encodeOpr_opcode (op : Opcode) (dr sr1 sr2 : Reg) (unread : BitVec 2) : bitField (encodeOpr op dr sr1 sr2 unread) 12 4 = op.bits := by
  apply BitVec.eq_of_getLsbD_eq
  intro i hi
  change (BitVec.extractLsb' (n := 4 + 3 + 3 + 1 + 2 + 3) 12 4 (op.bits ++ dr.bits ++ sr1.bits ++ 0#1 ++ unread ++ sr2.bits)).getLsbD i = (op.bits).getLsbD i
  simp only [BitVec.getLsbD_append, BitVec.getLsbD_extractLsb']
  interval_cases i <;> simp

@[simp] theorem encodeOpr_dr (op : Opcode) (dr sr1 sr2 : Reg) (unread : BitVec 2) : bitField (encodeOpr op dr sr1 sr2 unread) 9 3 = dr.bits := by
  apply BitVec.eq_of_getLsbD_eq
  intro i hi
  change (BitVec.extractLsb' (n := 4 + 3 + 3 + 1 + 2 + 3) 9 3 (op.bits ++ dr.bits ++ sr1.bits ++ 0#1 ++ unread ++ sr2.bits)).getLsbD i = (dr.bits).getLsbD i
  simp only [BitVec.getLsbD_append, BitVec.getLsbD_extractLsb']
  interval_cases i <;> simp

@[simp] theorem encodeOpr_sr1 (op : Opcode) (dr sr1 sr2 : Reg) (unread : BitVec 2) : bitField (encodeOpr op dr sr1 sr2 unread) 6 3 = sr1.bits := by
  apply BitVec.eq_of_getLsbD_eq
  intro i hi
  change (BitVec.extractLsb' (n := 4 + 3 + 3 + 1 + 2 + 3) 6 3 (op.bits ++ dr.bits ++ sr1.bits ++ 0#1 ++ unread ++ sr2.bits)).getLsbD i = (sr1.bits).getLsbD i
  simp only [BitVec.getLsbD_append, BitVec.getLsbD_extractLsb']
  interval_cases i <;> simp

@[simp] theorem encodeOpr_unread (op : Opcode) (dr sr1 sr2 : Reg) (unread : BitVec 2) : bitField (encodeOpr op dr sr1 sr2 unread) 3 2 = unread := by
  apply BitVec.eq_of_getLsbD_eq
  intro i hi
  change (BitVec.extractLsb' (n := 4 + 3 + 3 + 1 + 2 + 3) 3 2 (op.bits ++ dr.bits ++ sr1.bits ++ 0#1 ++ unread ++ sr2.bits)).getLsbD i = (unread).getLsbD i
  simp only [BitVec.getLsbD_append, BitVec.getLsbD_extractLsb']
  interval_cases i <;> simp

@[simp] theorem encodeOpr_sr2 (op : Opcode) (dr sr1 sr2 : Reg) (unread : BitVec 2) : bitField (encodeOpr op dr sr1 sr2 unread) 0 3 = sr2.bits := by
  apply BitVec.eq_of_getLsbD_eq
  intro i hi
  change (BitVec.extractLsb' (n := 4 + 3 + 3 + 1 + 2 + 3) 0 3 (op.bits ++ dr.bits ++ sr1.bits ++ 0#1 ++ unread ++ sr2.bits)).getLsbD i = (sr2.bits).getLsbD i
  simp only [BitVec.getLsbD_append, BitVec.getLsbD_extractLsb']
  interval_cases i <;> simp

theorem encodeOpr_mode (op : Opcode) (dr sr1 sr2 : Reg) (unread : BitVec 2) : BitVec.getLsbD (encodeOpr op dr sr1 sr2 unread) 5 = false := by
  change BitVec.getLsbD (w := 4 + 3 + 3 + 1 + 2 + 3) (op.bits ++ dr.bits ++ sr1.bits ++ 0#1 ++ unread ++ sr2.bits) 5 = false
  simp only [BitVec.getLsbD_append]
  simp

@[simp] theorem encodeOpr_mode_getElem (op : Opcode) (dr sr1 sr2 : Reg) (unread : BitVec 2) : (encodeOpr op dr sr1 sr2 unread : Word)[5] = false :=
  encodeOpr_mode op dr sr1 sr2 unread

/-! ### encodeOpi -/

@[simp] theorem encodeOpi_opcode (op : Opcode) (dr sr1 : Reg) (imm : BitVec 5) : bitField (encodeOpi op dr sr1 imm) 12 4 = op.bits := by
  apply BitVec.eq_of_getLsbD_eq
  intro i hi
  change (BitVec.extractLsb' (n := 4 + 3 + 3 + 1 + 5) 12 4 (op.bits ++ dr.bits ++ sr1.bits ++ 1#1 ++ imm)).getLsbD i = (op.bits).getLsbD i
  simp only [BitVec.getLsbD_append, BitVec.getLsbD_extractLsb']
  interval_cases i <;> simp

@[simp] theorem encodeOpi_dr (op : Opcode) (dr sr1 : Reg) (imm : BitVec 5) : bitField (encodeOpi op dr sr1 imm) 9 3 = dr.bits := by
  apply BitVec.eq_of_getLsbD_eq
  intro i hi
  change (BitVec.extractLsb' (n := 4 + 3 + 3 + 1 + 5) 9 3 (op.bits ++ dr.bits ++ sr1.bits ++ 1#1 ++ imm)).getLsbD i = (dr.bits).getLsbD i
  simp only [BitVec.getLsbD_append, BitVec.getLsbD_extractLsb']
  interval_cases i <;> simp

@[simp] theorem encodeOpi_sr1 (op : Opcode) (dr sr1 : Reg) (imm : BitVec 5) : bitField (encodeOpi op dr sr1 imm) 6 3 = sr1.bits := by
  apply BitVec.eq_of_getLsbD_eq
  intro i hi
  change (BitVec.extractLsb' (n := 4 + 3 + 3 + 1 + 5) 6 3 (op.bits ++ dr.bits ++ sr1.bits ++ 1#1 ++ imm)).getLsbD i = (sr1.bits).getLsbD i
  simp only [BitVec.getLsbD_append, BitVec.getLsbD_extractLsb']
  interval_cases i <;> simp

@[simp] theorem encodeOpi_imm (op : Opcode) (dr sr1 : Reg) (imm : BitVec 5) : bitField (encodeOpi op dr sr1 imm) 0 5 = imm := by
  apply BitVec.eq_of_getLsbD_eq
  intro i hi
  change (BitVec.extractLsb' (n := 4 + 3 + 3 + 1 + 5) 0 5 (op.bits ++ dr.bits ++ sr1.bits ++ 1#1 ++ imm)).getLsbD i = (imm).getLsbD i
  simp only [BitVec.getLsbD_append, BitVec.getLsbD_extractLsb']
  interval_cases i <;> simp

theorem encodeOpi_mode (op : Opcode) (dr sr1 : Reg) (imm : BitVec 5) : BitVec.getLsbD (encodeOpi op dr sr1 imm) 5 = true := by
  change BitVec.getLsbD (w := 4 + 3 + 3 + 1 + 5) (op.bits ++ dr.bits ++ sr1.bits ++ 1#1 ++ imm) 5 = true
  simp only [BitVec.getLsbD_append]
  simp

@[simp] theorem encodeOpi_mode_getElem (op : Opcode) (dr sr1 : Reg) (imm : BitVec 5) : (encodeOpi op dr sr1 imm : Word)[5] = true :=
  encodeOpi_mode op dr sr1 imm

/-! ### encodeNone -/

@[simp] theorem encodeNone_opcode (op : Opcode) (unread : BitVec 12) : bitField (encodeNone op unread) 12 4 = op.bits := by
  apply BitVec.eq_of_getLsbD_eq
  intro i hi
  change (BitVec.extractLsb' (n := 4 + 12) 12 4 (op.bits ++ unread)).getLsbD i = (op.bits).getLsbD i
  simp only [BitVec.getLsbD_append, BitVec.getLsbD_extractLsb']
  interval_cases i <;> simp

@[simp] theorem encodeNone_unread (op : Opcode) (unread : BitVec 12) : bitField (encodeNone op unread) 0 12 = unread := by
  apply BitVec.eq_of_getLsbD_eq
  intro i hi
  change (BitVec.extractLsb' (n := 4 + 12) 0 12 (op.bits ++ unread)).getLsbD i = (unread).getLsbD i
  simp only [BitVec.getLsbD_append, BitVec.getLsbD_extractLsb']
  interval_cases i <;> simp

/-! ### encodeTrap -/

@[simp] theorem encodeTrap_opcode (unread : BitVec 4) (vector : BitVec 8) : bitField (encodeTrap unread vector) 12 4 = Opcode.trap.bits := by
  apply BitVec.eq_of_getLsbD_eq
  intro i hi
  change (BitVec.extractLsb' (n := 4 + 4 + 8) 12 4 (Opcode.trap.bits ++ unread ++ vector)).getLsbD i = (Opcode.trap.bits).getLsbD i
  simp only [BitVec.getLsbD_append, BitVec.getLsbD_extractLsb']
  interval_cases i <;> simp

@[simp] theorem encodeTrap_unread (unread : BitVec 4) (vector : BitVec 8) : bitField (encodeTrap unread vector) 8 4 = unread := by
  apply BitVec.eq_of_getLsbD_eq
  intro i hi
  change (BitVec.extractLsb' (n := 4 + 4 + 8) 8 4 (Opcode.trap.bits ++ unread ++ vector)).getLsbD i = (unread).getLsbD i
  simp only [BitVec.getLsbD_append, BitVec.getLsbD_extractLsb']
  interval_cases i <;> simp

@[simp] theorem encodeTrap_vector (unread : BitVec 4) (vector : BitVec 8) : bitField (encodeTrap unread vector) 0 8 = vector := by
  apply BitVec.eq_of_getLsbD_eq
  intro i hi
  change (BitVec.extractLsb' (n := 4 + 4 + 8) 0 8 (Opcode.trap.bits ++ unread ++ vector)).getLsbD i = (vector).getLsbD i
  simp only [BitVec.getLsbD_append, BitVec.getLsbD_extractLsb']
  interval_cases i <;> simp

/-! ### encodeBr -/

@[simp] theorem encodeBr_opcode (nzp : BitVec 3) (offset : BitVec 9) : bitField (encode (.br nzp offset)) 12 4 = Opcode.br.bits := by
  apply BitVec.eq_of_getLsbD_eq
  intro i hi
  change (BitVec.extractLsb' (n := 4 + 3 + 9) 12 4 (Opcode.br.bits ++ nzp ++ offset)).getLsbD i = (Opcode.br.bits).getLsbD i
  simp only [BitVec.getLsbD_append, BitVec.getLsbD_extractLsb']
  interval_cases i <;> simp

@[simp] theorem encodeBr_nzp (nzp : BitVec 3) (offset : BitVec 9) : bitField (encode (.br nzp offset)) 9 3 = nzp := by
  apply BitVec.eq_of_getLsbD_eq
  intro i hi
  change (BitVec.extractLsb' (n := 4 + 3 + 9) 9 3 (Opcode.br.bits ++ nzp ++ offset)).getLsbD i = (nzp).getLsbD i
  simp only [BitVec.getLsbD_append, BitVec.getLsbD_extractLsb']
  interval_cases i <;> simp

@[simp] theorem encodeBr_offset (nzp : BitVec 3) (offset : BitVec 9) : bitField (encode (.br nzp offset)) 0 9 = offset := by
  apply BitVec.eq_of_getLsbD_eq
  intro i hi
  change (BitVec.extractLsb' (n := 4 + 3 + 9) 0 9 (Opcode.br.bits ++ nzp ++ offset)).getLsbD i = (offset).getLsbD i
  simp only [BitVec.getLsbD_append, BitVec.getLsbD_extractLsb']
  interval_cases i <;> simp

/-! ### encodeJsr -/

@[simp] theorem encodeJsr_opcode (offset : BitVec 11) : bitField (encode (.jsr offset)) 12 4 = Opcode.jsr.bits := by
  apply BitVec.eq_of_getLsbD_eq
  intro i hi
  change (BitVec.extractLsb' (n := 4 + 1 + 11) 12 4 (Opcode.jsr.bits ++ 1#1 ++ offset)).getLsbD i = (Opcode.jsr.bits).getLsbD i
  simp only [BitVec.getLsbD_append, BitVec.getLsbD_extractLsb']
  interval_cases i <;> simp

@[simp] theorem encodeJsr_offset (offset : BitVec 11) : bitField (encode (.jsr offset)) 0 11 = offset := by
  apply BitVec.eq_of_getLsbD_eq
  intro i hi
  change (BitVec.extractLsb' (n := 4 + 1 + 11) 0 11 (Opcode.jsr.bits ++ 1#1 ++ offset)).getLsbD i = (offset).getLsbD i
  simp only [BitVec.getLsbD_append, BitVec.getLsbD_extractLsb']
  interval_cases i <;> simp

theorem encodeJsr_long (offset : BitVec 11) : BitVec.getLsbD (encode (.jsr offset)) 11 = true := by
  change BitVec.getLsbD (w := 4 + 1 + 11) (Opcode.jsr.bits ++ 1#1 ++ offset) 11 = true
  simp only [BitVec.getLsbD_append]
  simp

@[simp] theorem encodeJsr_long_getElem (offset : BitVec 11) : (encode (.jsr offset) : Word)[11] = true :=
  encodeJsr_long offset

/-! ### encodeJsrr -/

@[simp] theorem encodeJsrr_opcode (base : Reg) (high : BitVec 2) (low : BitVec 6) : bitField (encode (.jsrr base high low)) 12 4 = Opcode.jsr.bits := by
  apply BitVec.eq_of_getLsbD_eq
  intro i hi
  change (BitVec.extractLsb' (n := 4 + 1 + 2 + 3 + 6) 12 4 (Opcode.jsr.bits ++ 0#1 ++ high ++ base.bits ++ low)).getLsbD i = (Opcode.jsr.bits).getLsbD i
  simp only [BitVec.getLsbD_append, BitVec.getLsbD_extractLsb']
  interval_cases i <;> simp

@[simp] theorem encodeJsrr_high (base : Reg) (high : BitVec 2) (low : BitVec 6) : bitField (encode (.jsrr base high low)) 9 2 = high := by
  apply BitVec.eq_of_getLsbD_eq
  intro i hi
  change (BitVec.extractLsb' (n := 4 + 1 + 2 + 3 + 6) 9 2 (Opcode.jsr.bits ++ 0#1 ++ high ++ base.bits ++ low)).getLsbD i = (high).getLsbD i
  simp only [BitVec.getLsbD_append, BitVec.getLsbD_extractLsb']
  interval_cases i <;> simp

@[simp] theorem encodeJsrr_base (base : Reg) (high : BitVec 2) (low : BitVec 6) : bitField (encode (.jsrr base high low)) 6 3 = base.bits := by
  apply BitVec.eq_of_getLsbD_eq
  intro i hi
  change (BitVec.extractLsb' (n := 4 + 1 + 2 + 3 + 6) 6 3 (Opcode.jsr.bits ++ 0#1 ++ high ++ base.bits ++ low)).getLsbD i = (base.bits).getLsbD i
  simp only [BitVec.getLsbD_append, BitVec.getLsbD_extractLsb']
  interval_cases i <;> simp

@[simp] theorem encodeJsrr_low (base : Reg) (high : BitVec 2) (low : BitVec 6) : bitField (encode (.jsrr base high low)) 0 6 = low := by
  apply BitVec.eq_of_getLsbD_eq
  intro i hi
  change (BitVec.extractLsb' (n := 4 + 1 + 2 + 3 + 6) 0 6 (Opcode.jsr.bits ++ 0#1 ++ high ++ base.bits ++ low)).getLsbD i = (low).getLsbD i
  simp only [BitVec.getLsbD_append, BitVec.getLsbD_extractLsb']
  interval_cases i <;> simp

theorem encodeJsrr_long (base : Reg) (high : BitVec 2) (low : BitVec 6) : BitVec.getLsbD (encode (.jsrr base high low)) 11 = false := by
  change BitVec.getLsbD (w := 4 + 1 + 2 + 3 + 6) (Opcode.jsr.bits ++ 0#1 ++ high ++ base.bits ++ low) 11 = false
  simp only [BitVec.getLsbD_append]
  simp

@[simp] theorem encodeJsrr_long_getElem (base : Reg) (high : BitVec 2) (low : BitVec 6) : (encode (.jsrr base high low) : Word)[11] = false :=
  encodeJsrr_long base high low

/-! ### encodeJmp -/

@[simp] theorem encodeJmp_opcode (base : Reg) (high : BitVec 3) (low : BitVec 6) : bitField (encode (.jmp base high low)) 12 4 = Opcode.jmp.bits := by
  apply BitVec.eq_of_getLsbD_eq
  intro i hi
  change (BitVec.extractLsb' (n := 4 + 3 + 3 + 6) 12 4 (Opcode.jmp.bits ++ high ++ base.bits ++ low)).getLsbD i = (Opcode.jmp.bits).getLsbD i
  simp only [BitVec.getLsbD_append, BitVec.getLsbD_extractLsb']
  interval_cases i <;> simp

@[simp] theorem encodeJmp_high (base : Reg) (high : BitVec 3) (low : BitVec 6) : bitField (encode (.jmp base high low)) 9 3 = high := by
  apply BitVec.eq_of_getLsbD_eq
  intro i hi
  change (BitVec.extractLsb' (n := 4 + 3 + 3 + 6) 9 3 (Opcode.jmp.bits ++ high ++ base.bits ++ low)).getLsbD i = (high).getLsbD i
  simp only [BitVec.getLsbD_append, BitVec.getLsbD_extractLsb']
  interval_cases i <;> simp

@[simp] theorem encodeJmp_base (base : Reg) (high : BitVec 3) (low : BitVec 6) : bitField (encode (.jmp base high low)) 6 3 = base.bits := by
  apply BitVec.eq_of_getLsbD_eq
  intro i hi
  change (BitVec.extractLsb' (n := 4 + 3 + 3 + 6) 6 3 (Opcode.jmp.bits ++ high ++ base.bits ++ low)).getLsbD i = (base.bits).getLsbD i
  simp only [BitVec.getLsbD_append, BitVec.getLsbD_extractLsb']
  interval_cases i <;> simp

@[simp] theorem encodeJmp_low (base : Reg) (high : BitVec 3) (low : BitVec 6) : bitField (encode (.jmp base high low)) 0 6 = low := by
  apply BitVec.eq_of_getLsbD_eq
  intro i hi
  change (BitVec.extractLsb' (n := 4 + 3 + 3 + 6) 0 6 (Opcode.jmp.bits ++ high ++ base.bits ++ low)).getLsbD i = (low).getLsbD i
  simp only [BitVec.getLsbD_append, BitVec.getLsbD_extractLsb']
  interval_cases i <;> simp

end Sys2Proof
end

