-- ==== Sys2Proof/Laws/State.lean ====
section
/-! SUPPORT. One lemma for each field of State and each update of it: what the update leaves there. -/

namespace Sys2Proof.Machine

/-! ### writeReg -/

@[simp] theorem writeReg_regs (s : State) (r : Reg) (v : Word) : (writeReg s r v).regs = s.regs.set r v := rfl
@[simp] theorem writeReg_pc (s : State) (r : Reg) (v : Word) : (writeReg s r v).pc = s.pc := rfl
@[simp] theorem writeReg_cond (s : State) (r : Reg) (v : Word) : (writeReg s r v).cond = s.cond := rfl
@[simp] theorem writeReg_mem (s : State) (r : Reg) (v : Word) : (writeReg s r v).mem = s.mem := rfl
@[simp] theorem writeReg_run (s : State) (r : Reg) (v : Word) : (writeReg s r v).run = s.run := rfl
@[simp] theorem writeReg_fault (s : State) (r : Reg) (v : Word) : (writeReg s r v).fault = s.fault := rfl
@[simp] theorem writeReg_input (s : State) (r : Reg) (v : Word) : (writeReg s r v).input = s.input := rfl
@[simp] theorem writeReg_inputTail (s : State) (r : Reg) (v : Word) : (writeReg s r v).inputTail = s.inputTail := rfl
@[simp] theorem writeReg_output (s : State) (r : Reg) (v : Word) : (writeReg s r v).output = s.output := rfl
@[simp] theorem writeReg_interruptIn (s : State) (r : Reg) (v : Word) : (writeReg s r v).interruptIn = s.interruptIn := rfl
@[simp] theorem writeReg_pending (s : State) (r : Reg) (v : Word) : (writeReg s r v).pending = s.pending := rfl

@[simp] theorem writeReg_memWord (s : State) (r : Reg) (v : Word) (b : Word) : memWord (writeReg s r v) b = memWord s b := rfl

/-! ### setPc -/

@[simp] theorem setPc_regs (s : State) (target : Word) : (setPc s target).regs = s.regs := rfl
@[simp] theorem setPc_pc (s : State) (target : Word) : (setPc s target).pc = target := rfl
@[simp] theorem setPc_cond (s : State) (target : Word) : (setPc s target).cond = s.cond := rfl
@[simp] theorem setPc_mem (s : State) (target : Word) : (setPc s target).mem = s.mem := rfl
@[simp] theorem setPc_run (s : State) (target : Word) : (setPc s target).run = s.run := rfl
@[simp] theorem setPc_fault (s : State) (target : Word) : (setPc s target).fault = s.fault := rfl
@[simp] theorem setPc_input (s : State) (target : Word) : (setPc s target).input = s.input := rfl
@[simp] theorem setPc_inputTail (s : State) (target : Word) : (setPc s target).inputTail = s.inputTail := rfl
@[simp] theorem setPc_output (s : State) (target : Word) : (setPc s target).output = s.output := rfl
@[simp] theorem setPc_interruptIn (s : State) (target : Word) : (setPc s target).interruptIn = s.interruptIn := rfl
@[simp] theorem setPc_pending (s : State) (target : Word) : (setPc s target).pending = s.pending := rfl

@[simp] theorem setPc_readReg (s : State) (target : Word) (q : Reg) : readReg (setPc s target) q = readReg s q := rfl
@[simp] theorem setPc_memWord (s : State) (target : Word) (b : Word) : memWord (setPc s target) b = memWord s b := rfl

/-! ### memWrite -/

@[simp] theorem memWrite_regs (s : State) (a v : Word) : (memWrite s a v).regs = s.regs := rfl
@[simp] theorem memWrite_pc (s : State) (a v : Word) : (memWrite s a v).pc = s.pc := rfl
@[simp] theorem memWrite_cond (s : State) (a v : Word) : (memWrite s a v).cond = s.cond := rfl
@[simp] theorem memWrite_mem (s : State) (a v : Word) : (memWrite s a v).mem = Memory.write s.mem a.toNat v := rfl
@[simp] theorem memWrite_run (s : State) (a v : Word) : (memWrite s a v).run = s.run := rfl
@[simp] theorem memWrite_fault (s : State) (a v : Word) : (memWrite s a v).fault = s.fault := rfl
@[simp] theorem memWrite_input (s : State) (a v : Word) : (memWrite s a v).input = s.input := rfl
@[simp] theorem memWrite_inputTail (s : State) (a v : Word) : (memWrite s a v).inputTail = s.inputTail := rfl
@[simp] theorem memWrite_output (s : State) (a v : Word) : (memWrite s a v).output = s.output := rfl
@[simp] theorem memWrite_interruptIn (s : State) (a v : Word) : (memWrite s a v).interruptIn = s.interruptIn := rfl
@[simp] theorem memWrite_pending (s : State) (a v : Word) : (memWrite s a v).pending = s.pending := rfl

@[simp] theorem memWrite_readReg (s : State) (a v : Word) (q : Reg) : readReg (memWrite s a v) q = readReg s q := rfl

/-! ### hostWrite -/

@[simp] theorem hostWrite_regs (s : State) (b : Byte) : (hostWrite s b).regs = s.regs := rfl
@[simp] theorem hostWrite_pc (s : State) (b : Byte) : (hostWrite s b).pc = s.pc := rfl
@[simp] theorem hostWrite_cond (s : State) (b : Byte) : (hostWrite s b).cond = s.cond := rfl
@[simp] theorem hostWrite_mem (s : State) (b : Byte) : (hostWrite s b).mem = s.mem := rfl
@[simp] theorem hostWrite_run (s : State) (b : Byte) : (hostWrite s b).run = s.run := rfl
@[simp] theorem hostWrite_fault (s : State) (b : Byte) : (hostWrite s b).fault = s.fault := rfl
@[simp] theorem hostWrite_input (s : State) (b : Byte) : (hostWrite s b).input = s.input := rfl
@[simp] theorem hostWrite_inputTail (s : State) (b : Byte) : (hostWrite s b).inputTail = s.inputTail := rfl
@[simp] theorem hostWrite_output (s : State) (b : Byte) : (hostWrite s b).output = s.output ++ [.byte b] := rfl
@[simp] theorem hostWrite_interruptIn (s : State) (b : Byte) : (hostWrite s b).interruptIn = s.interruptIn := rfl
@[simp] theorem hostWrite_pending (s : State) (b : Byte) : (hostWrite s b).pending = s.pending := rfl

@[simp] theorem hostWrite_readReg (s : State) (b : Byte) (q : Reg) : readReg (hostWrite s b) q = readReg s q := rfl
@[simp] theorem hostWrite_memWord (s : State) (b : Byte) (a : Word) : memWord (hostWrite s b) a = memWord s a := rfl

/-! ### hostFlush -/

@[simp] theorem hostFlush_regs (s : State) : (hostFlush s).regs = s.regs := rfl
@[simp] theorem hostFlush_pc (s : State) : (hostFlush s).pc = s.pc := rfl
@[simp] theorem hostFlush_cond (s : State) : (hostFlush s).cond = s.cond := rfl
@[simp] theorem hostFlush_mem (s : State) : (hostFlush s).mem = s.mem := rfl
@[simp] theorem hostFlush_run (s : State) : (hostFlush s).run = s.run := rfl
@[simp] theorem hostFlush_fault (s : State) : (hostFlush s).fault = s.fault := rfl
@[simp] theorem hostFlush_input (s : State) : (hostFlush s).input = s.input := rfl
@[simp] theorem hostFlush_inputTail (s : State) : (hostFlush s).inputTail = s.inputTail := rfl
@[simp] theorem hostFlush_output (s : State) : (hostFlush s).output = s.output ++ [.flush] := rfl
@[simp] theorem hostFlush_interruptIn (s : State) : (hostFlush s).interruptIn = s.interruptIn := rfl
@[simp] theorem hostFlush_pending (s : State) : (hostFlush s).pending = s.pending := rfl

@[simp] theorem hostFlush_readReg (s : State) (q : Reg) : readReg (hostFlush s) q = readReg s q := rfl
@[simp] theorem hostFlush_memWord (s : State) (b : Word) : memWord (hostFlush s) b = memWord s b := rfl

/-! ### leavePending -/

@[simp] theorem leavePending_regs (s : State) (service : Pending) : (leavePending s service).regs = s.regs := rfl
@[simp] theorem leavePending_pc (s : State) (service : Pending) : (leavePending s service).pc = s.pc := rfl
@[simp] theorem leavePending_cond (s : State) (service : Pending) : (leavePending s service).cond = s.cond := rfl
@[simp] theorem leavePending_mem (s : State) (service : Pending) : (leavePending s service).mem = s.mem := rfl
@[simp] theorem leavePending_run (s : State) (service : Pending) : (leavePending s service).run = s.run := rfl
@[simp] theorem leavePending_fault (s : State) (service : Pending) : (leavePending s service).fault = s.fault := rfl
@[simp] theorem leavePending_input (s : State) (service : Pending) : (leavePending s service).input = s.input := rfl
@[simp] theorem leavePending_inputTail (s : State) (service : Pending) : (leavePending s service).inputTail = s.inputTail := rfl
@[simp] theorem leavePending_output (s : State) (service : Pending) : (leavePending s service).output = s.output := rfl
@[simp] theorem leavePending_interruptIn (s : State) (service : Pending) : (leavePending s service).interruptIn = s.interruptIn := rfl
@[simp] theorem leavePending_pending (s : State) (service : Pending) : (leavePending s service).pending = some service := rfl

@[simp] theorem leavePending_readReg (s : State) (service : Pending) (q : Reg) : readReg (leavePending s service) q = readReg s q := rfl
@[simp] theorem leavePending_memWord (s : State) (service : Pending) (b : Word) : memWord (leavePending s service) b = memWord s b := rfl

/-! ### clearPending -/

@[simp] theorem clearPending_regs (s : State) : (clearPending s).regs = s.regs := rfl
@[simp] theorem clearPending_pc (s : State) : (clearPending s).pc = s.pc := rfl
@[simp] theorem clearPending_cond (s : State) : (clearPending s).cond = s.cond := rfl
@[simp] theorem clearPending_mem (s : State) : (clearPending s).mem = s.mem := rfl
@[simp] theorem clearPending_run (s : State) : (clearPending s).run = s.run := rfl
@[simp] theorem clearPending_fault (s : State) : (clearPending s).fault = s.fault := rfl
@[simp] theorem clearPending_input (s : State) : (clearPending s).input = s.input := rfl
@[simp] theorem clearPending_inputTail (s : State) : (clearPending s).inputTail = s.inputTail := rfl
@[simp] theorem clearPending_output (s : State) : (clearPending s).output = s.output := rfl
@[simp] theorem clearPending_interruptIn (s : State) : (clearPending s).interruptIn = s.interruptIn := rfl
@[simp] theorem clearPending_pending (s : State) : (clearPending s).pending = none := rfl

@[simp] theorem clearPending_readReg (s : State) (q : Reg) : readReg (clearPending s) q = readReg s q := rfl
@[simp] theorem clearPending_memWord (s : State) (b : Word) : memWord (clearPending s) b = memWord s b := rfl

/-! ### passStopPoint -/

@[simp] theorem passStopPoint_regs (s : State) : (passStopPoint s).regs = s.regs := rfl
@[simp] theorem passStopPoint_pc (s : State) : (passStopPoint s).pc = s.pc := rfl
@[simp] theorem passStopPoint_cond (s : State) : (passStopPoint s).cond = s.cond := rfl
@[simp] theorem passStopPoint_mem (s : State) : (passStopPoint s).mem = s.mem := rfl
@[simp] theorem passStopPoint_run (s : State) : (passStopPoint s).run = s.run := rfl
@[simp] theorem passStopPoint_fault (s : State) : (passStopPoint s).fault = s.fault := rfl
@[simp] theorem passStopPoint_input (s : State) : (passStopPoint s).input = s.input := rfl
@[simp] theorem passStopPoint_inputTail (s : State) : (passStopPoint s).inputTail = s.inputTail := rfl
@[simp] theorem passStopPoint_output (s : State) : (passStopPoint s).output = s.output := rfl
@[simp] theorem passStopPoint_interruptIn (s : State) : (passStopPoint s).interruptIn = s.interruptIn.map (· - 1) := rfl
@[simp] theorem passStopPoint_pending (s : State) : (passStopPoint s).pending = s.pending := rfl

@[simp] theorem passStopPoint_readReg (s : State) (q : Reg) : readReg (passStopPoint s) q = readReg s q := rfl
@[simp] theorem passStopPoint_memWord (s : State) (b : Word) : memWord (passStopPoint s) b = memWord s b := rfl

/-! ### takeInterrupt -/

@[simp] theorem takeInterrupt_regs (s : State) : (takeInterrupt s).regs = s.regs := rfl
@[simp] theorem takeInterrupt_pc (s : State) : (takeInterrupt s).pc = s.pc := rfl
@[simp] theorem takeInterrupt_cond (s : State) : (takeInterrupt s).cond = s.cond := rfl
@[simp] theorem takeInterrupt_mem (s : State) : (takeInterrupt s).mem = s.mem := rfl
@[simp] theorem takeInterrupt_run (s : State) : (takeInterrupt s).run = .halted .externalInterrupt := rfl
@[simp] theorem takeInterrupt_fault (s : State) : (takeInterrupt s).fault = s.fault := rfl
@[simp] theorem takeInterrupt_input (s : State) : (takeInterrupt s).input = s.input := rfl
@[simp] theorem takeInterrupt_inputTail (s : State) : (takeInterrupt s).inputTail = s.inputTail := rfl
@[simp] theorem takeInterrupt_output (s : State) : (takeInterrupt s).output = s.output := rfl
@[simp] theorem takeInterrupt_interruptIn (s : State) : (takeInterrupt s).interruptIn = none := rfl
@[simp] theorem takeInterrupt_pending (s : State) : (takeInterrupt s).pending = none := rfl

@[simp] theorem takeInterrupt_readReg (s : State) (q : Reg) : readReg (takeInterrupt s) q = readReg s q := rfl
@[simp] theorem takeInterrupt_memWord (s : State) (b : Word) : memWord (takeInterrupt s) b = memWord s b := rfl

/-! ### haltRun -/

@[simp] theorem haltRun_regs (s : State) (reason : HaltReason) : (haltRun s reason).regs = s.regs := rfl
@[simp] theorem haltRun_pc (s : State) (reason : HaltReason) : (haltRun s reason).pc = s.pc := rfl
@[simp] theorem haltRun_cond (s : State) (reason : HaltReason) : (haltRun s reason).cond = s.cond := rfl
@[simp] theorem haltRun_mem (s : State) (reason : HaltReason) : (haltRun s reason).mem = s.mem := rfl
@[simp] theorem haltRun_run (s : State) (reason : HaltReason) : (haltRun s reason).run = .halted reason := rfl
@[simp] theorem haltRun_fault (s : State) (reason : HaltReason) : (haltRun s reason).fault = s.fault := rfl
@[simp] theorem haltRun_input (s : State) (reason : HaltReason) : (haltRun s reason).input = s.input := rfl
@[simp] theorem haltRun_inputTail (s : State) (reason : HaltReason) : (haltRun s reason).inputTail = s.inputTail := rfl
@[simp] theorem haltRun_output (s : State) (reason : HaltReason) : (haltRun s reason).output = s.output := rfl
@[simp] theorem haltRun_interruptIn (s : State) (reason : HaltReason) : (haltRun s reason).interruptIn = s.interruptIn := rfl
@[simp] theorem haltRun_pending (s : State) (reason : HaltReason) : (haltRun s reason).pending = s.pending := rfl

@[simp] theorem haltRun_readReg (s : State) (reason : HaltReason) (q : Reg) : readReg (haltRun s reason) q = readReg s q := rfl
@[simp] theorem haltRun_memWord (s : State) (reason : HaltReason) (b : Word) : memWord (haltRun s reason) b = memWord s b := rfl

/-! ### raiseFault -/

@[simp] theorem raiseFault_regs (s : State) (cause : FaultCause) (word : Word) : (raiseFault s cause word).regs = s.regs := rfl
@[simp] theorem raiseFault_pc (s : State) (cause : FaultCause) (word : Word) : (raiseFault s cause word).pc = s.pc := rfl
@[simp] theorem raiseFault_cond (s : State) (cause : FaultCause) (word : Word) : (raiseFault s cause word).cond = s.cond := rfl
@[simp] theorem raiseFault_mem (s : State) (cause : FaultCause) (word : Word) : (raiseFault s cause word).mem = s.mem := rfl
@[simp] theorem raiseFault_run (s : State) (cause : FaultCause) (word : Word) : (raiseFault s cause word).run = .halted cause.reason := rfl
@[simp] theorem raiseFault_fault (s : State) (cause : FaultCause) (word : Word) : (raiseFault s cause word).fault = some ⟨cause, word, s.pc - 1⟩ := rfl
@[simp] theorem raiseFault_input (s : State) (cause : FaultCause) (word : Word) : (raiseFault s cause word).input = s.input := rfl
@[simp] theorem raiseFault_inputTail (s : State) (cause : FaultCause) (word : Word) : (raiseFault s cause word).inputTail = s.inputTail := rfl
@[simp] theorem raiseFault_output (s : State) (cause : FaultCause) (word : Word) : (raiseFault s cause word).output = s.output := rfl
@[simp] theorem raiseFault_interruptIn (s : State) (cause : FaultCause) (word : Word) : (raiseFault s cause word).interruptIn = s.interruptIn := rfl
@[simp] theorem raiseFault_pending (s : State) (cause : FaultCause) (word : Word) : (raiseFault s cause word).pending = s.pending := rfl

@[simp] theorem raiseFault_readReg (s : State) (cause : FaultCause) (word : Word) (q : Reg) : readReg (raiseFault s cause word) q = readReg s q := rfl
@[simp] theorem raiseFault_memWord (s : State) (cause : FaultCause) (word : Word) (b : Word) : memWord (raiseFault s cause word) b = memWord s b := rfl

/-! ### setcc -/

@[simp] theorem setcc_regs (s : State) (r : Reg) : (setcc s r).regs = s.regs := rfl
@[simp] theorem setcc_pc (s : State) (r : Reg) : (setcc s r).pc = s.pc := rfl
@[simp] theorem setcc_cond (s : State) (r : Reg) : (setcc s r).cond = condOf (readReg s r) := rfl
@[simp] theorem setcc_mem (s : State) (r : Reg) : (setcc s r).mem = s.mem := rfl
@[simp] theorem setcc_run (s : State) (r : Reg) : (setcc s r).run = s.run := rfl
@[simp] theorem setcc_fault (s : State) (r : Reg) : (setcc s r).fault = s.fault := rfl
@[simp] theorem setcc_input (s : State) (r : Reg) : (setcc s r).input = s.input := rfl
@[simp] theorem setcc_inputTail (s : State) (r : Reg) : (setcc s r).inputTail = s.inputTail := rfl
@[simp] theorem setcc_output (s : State) (r : Reg) : (setcc s r).output = s.output := rfl
@[simp] theorem setcc_interruptIn (s : State) (r : Reg) : (setcc s r).interruptIn = s.interruptIn := rfl
@[simp] theorem setcc_pending (s : State) (r : Reg) : (setcc s r).pending = s.pending := rfl

@[simp] theorem setcc_readReg (s : State) (r : Reg) (q : Reg) : readReg (setcc s r) q = readReg s q := rfl
@[simp] theorem setcc_memWord (s : State) (r : Reg) (b : Word) : memWord (setcc s r) b = memWord s b := rfl

end Sys2Proof.Machine
end

