-- ==== Sys2Proof/Laws/Ops.lean ====
section
/-! SUPPORT. What each shared operation does, said once: registers, memory, the bridge, the host interface,
the stop points. -/

namespace Sys2Proof.Machine

/-! ### Registers -/

/-- A written register holds the value written, every other register what it held (10_state.md R40). -/
theorem get_set (f : RegFile) (r q : Reg) (v : Word) :
    (f.set r v).get q = if q = r then v else f.get q := by
  cases r <;> cases q <;> rfl

@[simp] theorem readReg_writeReg (s : State) (r q : Reg) (v : Word) :
    readReg (writeReg s r v) q = if q = r then v else readReg s q :=
  get_set s.regs r q v

/-! ### Memory -/

theorem read_erase (m : Memory) (a b : Nat) :
    Memory.read (Memory.erase m a) b = if b = a then Config.unlistedWord else Memory.read m b := by
  induction m with
  | nil => simp [Memory.erase, Memory.read]
  | cons cell m ih =>
    obtain ⟨k, v⟩ := cell
    rcases eq_or_ne k a with rfl | hk
    · rcases eq_or_ne b k with rfl | hb
      · simpa [Memory.erase] using ih
      · simpa [Memory.erase, Memory.read, hb, hb.symm] using ih
    · rcases eq_or_ne k b with rfl | hkb
      · simp [Memory.erase, Memory.read, hk]
      · simpa [Memory.erase, Memory.read, hk, hkb] using ih

theorem read_insert (m : Memory) (a b : Nat) (w : Word) :
    Memory.read (Memory.insert (Memory.erase m a) a w) b = if b = a then w else Memory.read m b := by
  induction m with
  | nil =>
    rcases eq_or_ne b a with rfl | hb
    · simp [Memory.erase, Memory.insert, Memory.read]
    · simp [Memory.erase, Memory.insert, Memory.read, hb, hb.symm]
  | cons cell m ih =>
    obtain ⟨k, v⟩ := cell
    rcases eq_or_ne k a with rfl | hk
    · rcases eq_or_ne b k with rfl | hb
      · simpa [Memory.erase] using ih
      · simpa [Memory.erase, Memory.read, hb, hb.symm] using ih
    · by_cases hle : a ≤ k
      · rcases eq_or_ne b a with rfl | hb
        · simp [Memory.erase, Memory.insert, Memory.read, hk, hle]
        · rcases eq_or_ne k b with rfl | hkb
          · simp [Memory.erase, Memory.insert, Memory.read, hk, hle, Ne.symm hk]
          · simp [Memory.erase, Memory.insert, Memory.read, hk, hle, hkb, hb, hb.symm, read_erase]
      · rcases eq_or_ne k b with rfl | hkb
        · simp [Memory.erase, Memory.insert, Memory.read, hk, hle]
        · simpa [Memory.erase, Memory.insert, Memory.read, hk, hle, hkb] using ih

/-- A read after a write: the word written at its address, the old word elsewhere (20_memory.md R96). -/
theorem read_write (m : Memory) (a b : Nat) (w : Word) :
    Memory.read (Memory.write m a w) b = if b = a then w else Memory.read m b := by
  unfold Memory.write
  split
  · next h => rw [read_erase, h]
  · exact read_insert m a b w

@[simp] theorem memWord_memWrite (s : State) (a b v : Word) :
    memWord (memWrite s a v) b = if b = a then v else memWord s b := by
  simp [memWord, memWrite, read_write, BitVec.toNat_inj]

theorem above_iff (low : Nat) (m : Memory) :
    Memory.above low m = true ↔ ∀ cell ∈ m, low < cell.1 := by
  simp [Memory.above]

theorem mem_erase {m : Memory} {a : Nat} {cell : Nat × Word} (h : cell ∈ Memory.erase m a) :
    cell ∈ m ∧ cell.1 ≠ a := by
  induction m with
  | nil => simp [Memory.erase] at h
  | cons head m ih =>
    obtain ⟨k, v⟩ := head
    by_cases hk : k = a
    · simp only [Memory.erase, hk, if_true] at h
      exact ⟨List.mem_cons_of_mem _ (ih h).1, (ih h).2⟩
    · simp only [Memory.erase, hk, if_false, List.mem_cons] at h
      rcases h with rfl | h
      · exact ⟨List.mem_cons_self, hk⟩
      · exact ⟨List.mem_cons_of_mem _ (ih h).1, (ih h).2⟩

theorem mem_insert {m : Memory} {a : Nat} {w : Word} {cell : Nat × Word}
    (h : cell ∈ Memory.insert m a w) : cell = (a, w) ∨ cell ∈ m := by
  induction m with
  | nil => simpa [Memory.insert] using h
  | cons head m ih =>
    obtain ⟨k, v⟩ := head
    by_cases hle : a ≤ k
    · simpa [Memory.insert, hle] using h
    · simp only [Memory.insert, hle, if_false, List.mem_cons] at h ⊢
      rcases h with h | h
      · exact .inr (.inl h)
      · exact (ih h).imp id .inr

theorem wf_erase {m : Memory} (a : Nat) (h : Memory.wf m = true) : Memory.wf (Memory.erase m a) = true := by
  induction m with
  | nil => rfl
  | cons head m ih =>
    obtain ⟨k, v⟩ := head
    simp only [Memory.wf, Bool.and_eq_true, decide_eq_true_eq, above_iff] at h
    obtain ⟨⟨⟨hk, hv⟩, habove⟩, hm⟩ := h
    by_cases hka : k = a
    · simpa [Memory.erase, hka] using ih hm
    · simp only [Memory.erase, hka, if_false, Memory.wf, Bool.and_eq_true, decide_eq_true_eq, above_iff]
      exact ⟨⟨⟨hk, hv⟩, fun cell hc => habove cell (mem_erase hc).1⟩, ih hm⟩

theorem wf_insert {m : Memory} {a : Nat} {w : Word} (ha : a < Config.memWords)
    (hw : w ≠ Config.unlistedWord) (hfree : ∀ cell ∈ m, cell.1 ≠ a) (h : Memory.wf m = true) :
    Memory.wf (Memory.insert m a w) = true := by
  induction m with
  | nil => simp [Memory.insert, Memory.wf, Memory.above, ha, hw]
  | cons head m ih =>
    obtain ⟨k, v⟩ := head
    have hka : k ≠ a := hfree _ List.mem_cons_self
    have hwf := h
    simp only [Memory.wf, Bool.and_eq_true, decide_eq_true_eq, above_iff] at h
    obtain ⟨⟨⟨hk, hv⟩, habove⟩, hm⟩ := h
    by_cases hle : a ≤ k
    · simp only [Memory.insert, hle, if_true]
      rw [Memory.wf, hwf]
      simp only [Bool.and_true, Bool.and_eq_true, decide_eq_true_eq, above_iff]
      refine ⟨⟨ha, hw⟩, fun cell hc => ?_⟩
      rcases List.mem_cons.1 hc with rfl | hc
      · exact lt_of_le_of_ne hle (Ne.symm hka)
      · exact lt_of_le_of_lt hle (habove cell hc)
    · simp only [Memory.insert, hle, if_false, Memory.wf, Bool.and_eq_true, decide_eq_true_eq, above_iff]
      refine ⟨⟨⟨hk, hv⟩, fun cell hc => ?_⟩, ih (fun c hc => hfree c (List.mem_cons_of_mem _ hc)) hm⟩
      rcases mem_insert hc with rfl | hc
      · exact not_le.1 hle
      · exact habove cell hc

/-- A write keeps the canonical form. -/
theorem wf_write {m : Memory} {a : Nat} (w : Word) (ha : a < Config.memWords) (h : Memory.wf m = true) :
    Memory.wf (Memory.write m a w) = true := by
  unfold Memory.write
  split
  · exact wf_erase a h
  · next hw => exact wf_insert ha hw (fun _ hc => (mem_erase hc).2) (wf_erase a h)

theorem wf_memWrite {s : State} (a v : Word) (h : Memory.wf s.mem = true) :
    Memory.wf (memWrite s a v).mem = true :=
  wf_write v a.isLt h

/-- The memory at reset has the canonical form. -/
theorem wf_reset : Memory.wf State.reset.mem = true := rfl

/-! ### Host input -/

/-- Everything a request for a byte can do: it takes one answer of the host, or, with none left, answers
what P_EOF says and changes nothing. -/
theorem hostTryRead_cases (s : State) :
    (∃ e rest, s.input = e :: rest ∧ hostTryRead s = (e.word, { s with input := rest })) ∨
      (s.input = [] ∧ s.inputTail = .quiet ∧ hostTryRead s = (none, s)) ∨
      (s.input = [] ∧ s.inputTail = .ended ∧ hostTryRead s = (inputAtEnd, s)) ∨
      (∃ first rest, s.input = [] ∧ s.inputTail = .repeats first rest ∧
        hostTryRead s = (first.word, { s with input := rest })) ∨
      ∃ next, s.input = [] ∧ s.inputTail = .free next ∧
        hostTryRead s = ((freeAnswer next).word, { s with inputTail := .free (next + 1) }) := by
  unfold hostTryRead
  match h : s.input with
  | e :: rest => exact .inl ⟨e, rest, rfl, rfl⟩
  | [] =>
    match h' : s.inputTail with
    | .quiet => exact .inr (.inl ⟨rfl, rfl, rfl⟩)
    | .ended => exact .inr (.inr (.inl ⟨rfl, rfl, rfl⟩))
    | .repeats first rest => exact .inr (.inr (.inr (.inl ⟨first, rest, rfl, rfl, rfl⟩)))
    | .free next => exact .inr (.inr (.inr (.inr ⟨next, rfl, rfl, rfl⟩)))

/-- A request for a byte changes no state but the host's coming input. -/
theorem hostTryRead_snd (s : State) :
    ∃ rest tail, (hostTryRead s).2 = { s with input := rest, inputTail := tail } := by
  rcases hostTryRead_cases s with ⟨_, rest, -, h⟩ | ⟨-, -, h⟩ | ⟨-, -, h⟩ | ⟨_, rest, -, -, h⟩ | ⟨next, -, -, h⟩
  · exact ⟨rest, s.inputTail, by rw [h]⟩
  · exact ⟨s.input, s.inputTail, by rw [h]⟩
  · exact ⟨s.input, s.inputTail, by rw [h]⟩
  · exact ⟨rest, s.inputTail, by rw [h]⟩
  · exact ⟨s.input, .free (next + 1), by rw [h]⟩

/-! ### The bridge -/

/-- Away from KBSR_ADDR a read changes nothing (20_memory.md R86). -/
@[simp] theorem intercept_of_ne {s : State} {a : Word} (h : a ≠ Config.kbsrAddr) : intercept s a = s := by
  simp [intercept, h]

/-- A poll that finds a byte (20_memory.md R89). -/
theorem pollKeyboard_some {s t : State} {w : Word} (h : hostTryRead s = (some w, t)) :
    pollKeyboard s = memWrite (memWrite t Config.kbsrAddr Config.kbReady) Config.kbdrAddr w := by
  simp [pollKeyboard, h]

/-- A poll that finds none (20_memory.md R89). -/
theorem pollKeyboard_none {s t : State} (h : hostTryRead s = (none, t)) :
    pollKeyboard s = memWrite t Config.kbsrAddr 0x0000 := by
  simp [pollKeyboard, h]

/-- Everything a read can change: the host's coming input and, through the two keyboard words, memory. -/
theorem intercept_shape (s : State) (a : Word) :
    ∃ rest tail m, intercept s a = { s with input := rest, inputTail := tail, mem := m } ∧
      (Memory.wf s.mem = true → Memory.wf m = true) := by
  unfold intercept
  split
  · unfold pollKeyboard
    obtain ⟨rest, tail, hrest⟩ := hostTryRead_snd s
    match h : hostTryRead s with
    | (some w, t) =>
      rw [h] at hrest
      subst hrest
      exact ⟨rest, tail, _, rfl, fun hs =>
        wf_memWrite _ _ (wf_memWrite (s := { s with input := rest, inputTail := tail }) _ _ hs)⟩
    | (none, t) =>
      rw [h] at hrest
      subst hrest
      exact ⟨rest, tail, _, rfl, fun hs => wf_write _ (BitVec.isLt _) hs⟩
  · exact ⟨s.input, s.inputTail, s.mem, rfl, id⟩

section
variable (s : State) (a : Word)

@[simp] theorem intercept_regs : (intercept s a).regs = s.regs := by
  obtain ⟨_, _, _, h, -⟩ := intercept_shape s a; rw [h]
@[simp] theorem intercept_readReg (q : Reg) : readReg (intercept s a) q = readReg s q := by
  obtain ⟨_, _, _, h, -⟩ := intercept_shape s a; rw [h]; rfl
@[simp] theorem intercept_pc : (intercept s a).pc = s.pc := by
  obtain ⟨_, _, _, h, -⟩ := intercept_shape s a; rw [h]
@[simp] theorem intercept_cond : (intercept s a).cond = s.cond := by
  obtain ⟨_, _, _, h, -⟩ := intercept_shape s a; rw [h]
@[simp] theorem intercept_run : (intercept s a).run = s.run := by
  obtain ⟨_, _, _, h, -⟩ := intercept_shape s a; rw [h]
@[simp] theorem intercept_fault : (intercept s a).fault = s.fault := by
  obtain ⟨_, _, _, h, -⟩ := intercept_shape s a; rw [h]
@[simp] theorem intercept_output : (intercept s a).output = s.output := by
  obtain ⟨_, _, _, h, -⟩ := intercept_shape s a; rw [h]
@[simp] theorem intercept_interruptIn : (intercept s a).interruptIn = s.interruptIn := by
  obtain ⟨_, _, _, h, -⟩ := intercept_shape s a; rw [h]
@[simp] theorem intercept_pending : (intercept s a).pending = s.pending := by
  obtain ⟨_, _, _, h, -⟩ := intercept_shape s a; rw [h]

@[simp] theorem memRead_snd : (memRead s a).2 = intercept s a := rfl
@[simp] theorem memRead_fst : (memRead s a).1 = memWord (intercept s a) a := rfl

end

theorem wf_intercept {s : State} (a : Word) (h : Memory.wf s.mem = true) :
    Memory.wf (intercept s a).mem = true := by
  obtain ⟨_, _, m, he, hm⟩ := intercept_shape s a
  rw [he]
  exact hm h

/-! ### Stop points and parameter texts -/

/-- With no interrupt to come a stop point changes nothing. -/
@[simp] theorem passStopPoint_of_none {s : State} (h : s.interruptIn = none) : passStopPoint s = s := by
  cases s; simp_all [passStopPoint]

@[simp] theorem interruptHere_of_none {s : State} (h : s.interruptIn = none) : interruptHere s = false := by
  simp [interruptHere, h]

theorem stopPoint_of_none {s : State} (rest : State → State) (h : s.interruptIn = none) :
    stopPoint s rest = rest s := by
  simp [stopPoint, h]

/-- The empty text writes nothing. -/
theorem hostWriteText_nil (s : State) (rest : State → State) : hostWriteText s [] rest = rest s := by
  cases s with
  | mk _ _ _ _ _ _ _ _ _ interruptIn _ => cases interruptIn <;> simp [hostWriteText]

/-- A text is written byte by byte, with a stop point after each byte (43_trap.md R286, R290). -/
theorem hostWriteText_cons (s : State) (b : Byte) (text : List Byte) (rest : State → State) :
    hostWriteText s (b :: text) rest = stopPoint (hostWrite s b) fun t => hostWriteText t text rest := by
  match h : s.interruptIn with
  | none => simp [hostWriteText, stopPoint, h, hostWrite, interruptHere, passStopPoint]
  | some 0 => simp [hostWriteText, stopPoint, h, hostWrite, interruptHere]
  | some (n + 1) =>
    by_cases hn : n < text.length <;>
      simp [hostWriteText, stopPoint, h, hostWrite, interruptHere, passStopPoint, takeInterrupt, hn]

/-- With no interrupt to come a text is written whole. -/
theorem hostWriteText_of_none {s : State} (text : List Byte) (rest : State → State)
    (h : s.interruptIn = none) :
    hostWriteText s text rest = rest { s with output := s.output ++ text.map .byte } := by
  simp [hostWriteText, h]

end Sys2Proof.Machine
end

