-- ==== Sys2Proof/Laws/Host.lean ====
section
/-! SUPPORT. The host's answers as one sequence, whatever form `input` and `inputTail` give it, and what a
request for a byte takes of it. -/

namespace Sys2Proof.Machine

/-! ### Answers used up -/

/-- Using up no answer. -/
theorem AnswersTaken.refl (s : State) : AnswersTaken 0 s s := ⟨fun _ => rfl, Iff.rfl⟩

/-- Using up `j` answers and then `k`. -/
theorem AnswersTaken.trans {j k : Nat} {s t u : State} (h : AnswersTaken j s t) (h' : AnswersTaken k t u) :
    AnswersTaken (j + k) s u :=
  ⟨fun n => by rw [h'.1, h.1, Nat.add_assoc, Nat.add_comm k j], h'.2.trans h.2⟩

/-- States with the same coming input have the same answers. -/
theorem answer_congr {s t : State} (hi : t.input = s.input) (ht : t.inputTail = s.inputTail) (n : Nat) :
    answer t n = answer s n := by
  unfold answer; rw [hi, ht]

/-- A change of anything but the coming input uses up no answer. -/
theorem AnswersTaken.of_same {s t : State} (hi : t.input = s.input) (ht : t.inputTail = s.inputTail) :
    AnswersTaken 0 s t :=
  ⟨fun n => answer_congr hi ht n, by rw [ht]⟩

/-! ### The sequence, by the form of the coming input -/

theorem answer_zero_cons {s : State} {e : InputEvent} {rest : List InputEvent} (h : s.input = e :: rest) :
    answer s 0 = some e := by
  simp [answer, h]

theorem answer_nil {s : State} (h : s.input = []) (n : Nat) : answer s n = s.inputTail.answer n := by
  simp [answer, h]

theorem answer_zero_repeats {s : State} {first : InputEvent} {rest : List InputEvent} (h : s.input = [])
    (ht : s.inputTail = .repeats first rest) : answer s 0 = some first := by
  simp [answer_nil h, ht, InputTail.answer]

theorem answer_zero_free {s : State} {next : Nat} (h : s.input = []) (ht : s.inputTail = .free next) :
    answer s 0 = some (freeAnswer next) := by
  simp [answer_nil h, ht, InputTail.answer]

/-- A round of a repeated input: its tail, then the whole of it again. -/
theorem answer_repeats_succ {s t : State} {first : InputEvent} {rest : List InputEvent} (h : s.input = [])
    (ht : s.inputTail = .repeats first rest) (hi' : t.input = rest) (ht' : t.inputTail = s.inputTail)
    (n : Nat) : answer t n = answer s (n + 1) := by
  rw [answer_nil h, ht]
  unfold answer
  rw [hi', ht', ht]
  by_cases hn : n < rest.length
  · simp [hn, InputTail.answer, Nat.mod_eq_of_lt (Nat.succ_lt_succ hn)]
  · have hm : n + 1 = (n - rest.length) + (rest.length + 1) := by omega
    simp only [hn, if_false, InputTail.answer]
    rw [hm, Nat.add_mod_right]

/-! ### A request -/

/-- What a request gives: the word of the host's next answer; none where it has no answer and its input has not
ended; at the end of its input what P_EOF says. -/
theorem hostTryRead_fst (s : State) :
    (hostTryRead s).1 = match answer s 0 with
      | some e => e.word
      | none => if s.inputTail = .ended then inputAtEnd else none := by
  rcases hostTryRead_cases s with ⟨_, _, hi, h⟩ | ⟨hi, ht, h⟩ | ⟨hi, ht, h⟩ | ⟨_, _, hi, ht, h⟩ | ⟨_, hi, ht, h⟩
  · simp [h, answer_zero_cons hi]
  · simp [h, answer_nil hi, ht, InputTail.answer]
  · simp [h, answer_nil hi, ht, InputTail.answer]
  · simp [h, answer_zero_repeats hi ht]
  · simp [h, answer_zero_free hi ht]

/-- A request uses up one answer. -/
theorem hostTryRead_taken (s : State) : AnswersTaken 1 s (hostTryRead s).2 := by
  rcases hostTryRead_cases s with
    ⟨e, rest, hi, h⟩ | ⟨hi, ht, h⟩ | ⟨hi, ht, h⟩ | ⟨_, rest, hi, ht, h⟩ | ⟨next, hi, ht, h⟩
  · rw [h]
    refine ⟨fun n => ?_, Iff.rfl⟩
    simp [answer, hi]
  · rw [h]
    refine ⟨fun n => ?_, Iff.rfl⟩
    simp [answer_nil hi, ht, InputTail.answer]
  · rw [h]
    refine ⟨fun n => ?_, Iff.rfl⟩
    simp [answer_nil hi, ht, InputTail.answer]
  · rw [h]
    exact ⟨fun n => answer_repeats_succ (t := { s with input := rest }) hi ht rfl rfl n, Iff.rfl⟩
  · rw [h]
    refine ⟨fun n => ?_, by simp [ht]⟩
    rw [answer_nil hi, answer_nil (s := { s with inputTail := .free (next + 1) }) hi, ht]
    simp [InputTail.answer, Nat.add_assoc, Nat.add_comm 1 n]

/-- A request with a byte there gives its word (00_scope.md R19). -/
theorem hostTryRead_of_hasByte {s : State} {c : Byte} (h : HasByte s c) :
    hostTryRead s = (some (zext16 c), (hostTryRead s).2) := by
  have h' := hostTryRead_fst s
  rw [show answer s 0 = _ from h] at h'
  exact Prod.ext h' rfl

/-- A request with no byte there gives none. -/
theorem hostTryRead_of_noByteYet {s : State} (h : NoByteYet s) :
    hostTryRead s = (none, (hostTryRead s).2) := by
  have h' := hostTryRead_fst s
  rcases h with h | ⟨h, ht⟩
  · rw [h] at h'; exact Prod.ext h' rfl
  · rw [h] at h'; exact Prod.ext (h'.trans (if_neg ht)) rfl

/-- A request at the end of the input changes nothing (43_trap.md R292). -/
theorem hostTryRead_of_ended {s : State} (hi : s.input = []) (ht : s.inputTail = .ended) :
    hostTryRead s = (inputAtEnd, s) := by
  simp [hostTryRead, hi, ht]

/-! ### The coming interrupt -/

theorem NoInterruptWithin.of_none {s : State} (h : s.interruptIn = none) (n : Nat) : NoInterruptWithin s n :=
  fun k hk => by rw [h] at hk; cases hk

theorem NoInterruptWithin.of_some {s : State} {k n : Nat} (h : s.interruptIn = some k) (hn : n ≤ k) :
    NoInterruptWithin s n :=
  fun j hj => by rw [h] at hj; cases hj; exact hn

/-- With no interrupt within `n + 1` stop points the next one is passed, and none comes within `n` more. -/
theorem NoInterruptWithin.stopPoint {s : State} {n : Nat} (h : NoInterruptWithin s (n + 1))
    (rest : State → State) :
    stopPoint s rest = rest (passStopPoint s) ∧ NoInterruptWithin (passStopPoint s) n := by
  match hi : s.interruptIn with
  | none => exact ⟨by rw [stopPoint_of_none _ hi, passStopPoint_of_none hi], .of_none (by simp [hi]) n⟩
  | some k =>
    have hk := h k hi
    refine ⟨?_, .of_some (k := k - 1) (by simp [hi]) (by omega)⟩
    unfold Machine.stopPoint
    rw [if_neg]
    simp [interruptHere, hi]
    omega

/-- A text before whose end no interrupt comes is written whole. -/
theorem hostWriteText_of_noInterrupt {s : State} {text : List Byte} (h : NoInterruptWithin s text.length)
    (rest : State → State) :
    hostWriteText s text rest =
      rest { s with output := s.output ++ text.map .byte,
                    interruptIn := s.interruptIn.map (· - text.length) } := by
  match hi : s.interruptIn with
  | none => simp [hostWriteText, hi]
  | some k => simp [hostWriteText, hi, Nat.not_lt.2 (h k hi)]

end Sys2Proof.Machine
end

