-- ==== Sys2Proof/Laws/PerInstr.lean ====
section
/-! SUPPORT. A law of the instructions, one lemma for each constructor: the word of a well-formed
instruction is selected by its own row of the opcode table (30_encoding.md R134). -/

namespace Sys2Proof

/-- The row of a well-formed instruction selects its word. -/
def Laws.RowOfWord.Statement (i : Instr) : Prop :=
  i.wellFormed = true → i.row.selects (encode i) = true

theorem Laws.RowOfWord.br (nzp : BitVec 3) (offset : BitVec 9) :
    Laws.RowOfWord.Statement (.br nzp offset) := by
  intro _
  simp [Instr.row, TableRow.selects, and_opcode_mask, Opcode.bits]

theorem Laws.RowOfWord.addReg (dr sr1 sr2 : Reg) (unread : BitVec 2) :
    Laws.RowOfWord.Statement (.addReg dr sr1 sr2 unread) := by
  intro _
  simp [Instr.row, TableRow.selects, and_mode_mask, encode, bitField_one (encodeOpr_mode _ _ _ _ _), Opcode.bits]

theorem Laws.RowOfWord.addImm (dr sr1 : Reg) (imm : BitVec 5) :
    Laws.RowOfWord.Statement (.addImm dr sr1 imm) := by
  intro _
  simp [Instr.row, TableRow.selects, and_mode_mask, encode, bitField_one (encodeOpi_mode _ _ _ _), Opcode.bits]

theorem Laws.RowOfWord.ld (dr : Reg) (offset : BitVec 9) :
    Laws.RowOfWord.Statement (.ld dr offset) := by
  intro _
  simp [Instr.row, TableRow.selects, and_opcode_mask, encode, Opcode.bits]

theorem Laws.RowOfWord.st (sr : Reg) (offset : BitVec 9) :
    Laws.RowOfWord.Statement (.st sr offset) := by
  intro _
  simp [Instr.row, TableRow.selects, and_opcode_mask, encode, Opcode.bits]

theorem Laws.RowOfWord.jsrr (base : Reg) (unreadHigh : BitVec 2) (unreadLow : BitVec 6) :
    Laws.RowOfWord.Statement (.jsrr base unreadHigh unreadLow) := by
  intro _
  simp [Instr.row, TableRow.selects, and_long_mask, bitField_one (encodeJsrr_long _ _ _), Opcode.bits]

theorem Laws.RowOfWord.jsr (offset : BitVec 11) :
    Laws.RowOfWord.Statement (.jsr offset) := by
  intro _
  simp [Instr.row, TableRow.selects, and_long_mask, bitField_one (encodeJsr_long _), Opcode.bits]

theorem Laws.RowOfWord.andReg (dr sr1 sr2 : Reg) (unread : BitVec 2) :
    Laws.RowOfWord.Statement (.andReg dr sr1 sr2 unread) := by
  intro _
  simp [Instr.row, TableRow.selects, and_mode_mask, encode, bitField_one (encodeOpr_mode _ _ _ _ _), Opcode.bits]

theorem Laws.RowOfWord.andImm (dr sr1 : Reg) (imm : BitVec 5) :
    Laws.RowOfWord.Statement (.andImm dr sr1 imm) := by
  intro _
  simp [Instr.row, TableRow.selects, and_mode_mask, encode, bitField_one (encodeOpi_mode _ _ _ _), Opcode.bits]

theorem Laws.RowOfWord.ldr (dr base : Reg) (offset : BitVec 6) :
    Laws.RowOfWord.Statement (.ldr dr base offset) := by
  intro _
  simp [Instr.row, TableRow.selects, and_opcode_mask, encode, Opcode.bits]

theorem Laws.RowOfWord.str (sr base : Reg) (offset : BitVec 6) :
    Laws.RowOfWord.Statement (.str sr base offset) := by
  intro _
  simp [Instr.row, TableRow.selects, and_opcode_mask, encode, Opcode.bits]

theorem Laws.RowOfWord.rti (unread : BitVec 12) :
    Laws.RowOfWord.Statement (.rti unread) := by
  intro _
  simp [Instr.row, TableRow.selects, and_opcode_mask, encode, Opcode.bits]

theorem Laws.RowOfWord.notReg (dr sr : Reg) (unread : BitVec 6) :
    Laws.RowOfWord.Statement (.notReg dr sr unread) := by
  intro _
  simp [Instr.row, TableRow.selects, and_opcode_mask, encode, Opcode.bits]

theorem Laws.RowOfWord.ldi (dr : Reg) (offset : BitVec 9) :
    Laws.RowOfWord.Statement (.ldi dr offset) := by
  intro _
  simp [Instr.row, TableRow.selects, and_opcode_mask, encode, Opcode.bits]

theorem Laws.RowOfWord.sti (sr : Reg) (offset : BitVec 9) :
    Laws.RowOfWord.Statement (.sti sr offset) := by
  intro _
  simp [Instr.row, TableRow.selects, and_opcode_mask, encode, Opcode.bits]

theorem Laws.RowOfWord.jmp (base : Reg) (unreadHigh : BitVec 3) (unreadLow : BitVec 6) :
    Laws.RowOfWord.Statement (.jmp base unreadHigh unreadLow) := by
  intro _
  simp [Instr.row, TableRow.selects, and_opcode_mask, Opcode.bits]

theorem Laws.RowOfWord.res (unread : BitVec 12) :
    Laws.RowOfWord.Statement (.res unread) := by
  intro _
  simp [Instr.row, TableRow.selects, and_opcode_mask, encode, Opcode.bits]

theorem Laws.RowOfWord.lea (dr : Reg) (offset : BitVec 9) :
    Laws.RowOfWord.Statement (.lea dr offset) := by
  intro _
  simp [Instr.row, TableRow.selects, and_opcode_mask, encode, Opcode.bits]

theorem Laws.RowOfWord.trapGetc (unread : BitVec 4) :
    Laws.RowOfWord.Statement (.trapGetc unread) := by
  intro _
  simp [Instr.row, TableRow.selects, and_vector_mask, encode, Opcode.bits]

theorem Laws.RowOfWord.trapOut (unread : BitVec 4) :
    Laws.RowOfWord.Statement (.trapOut unread) := by
  intro _
  simp [Instr.row, TableRow.selects, and_vector_mask, encode, Opcode.bits]

theorem Laws.RowOfWord.trapPuts (unread : BitVec 4) :
    Laws.RowOfWord.Statement (.trapPuts unread) := by
  intro _
  simp [Instr.row, TableRow.selects, and_vector_mask, encode, Opcode.bits]

theorem Laws.RowOfWord.trapIn (unread : BitVec 4) :
    Laws.RowOfWord.Statement (.trapIn unread) := by
  intro _
  simp [Instr.row, TableRow.selects, and_vector_mask, encode, Opcode.bits]

theorem Laws.RowOfWord.trapPutsp (unread : BitVec 4) :
    Laws.RowOfWord.Statement (.trapPutsp unread) := by
  intro _
  simp [Instr.row, TableRow.selects, and_vector_mask, encode, Opcode.bits]

theorem Laws.RowOfWord.trapHalt (unread : BitVec 4) :
    Laws.RowOfWord.Statement (.trapHalt unread) := by
  intro _
  simp [Instr.row, TableRow.selects, and_vector_mask, encode, Opcode.bits]

theorem Laws.RowOfWord.trapUnknown (unread : BitVec 4) (vector : BitVec 8) :
    Laws.RowOfWord.Statement (.trapUnknown unread vector) := by
  intro h
  simp [Instr.row, TableRow.selects, and_opcode_mask, encode, Opcode.bits]
  simpa [Instr.wellFormed] using h

end Sys2Proof
end

