-- ==== Sys2Proof/Laws/Trap.lean ====
section
/-! SUPPORT. What a trap service can do, said once: the part of the state it leaves alone and how it uses the
host interface, for GETC, IN, PUTS and PUTSP from any point on. -/

namespace Sys2Proof.Machine

/-! ### The string loops, one word at a time -/

/-- A zero word ends PUTS: the flush, nothing in progress (43_trap.md R285). -/
theorem putsFrom_stop (fuel : Nat) {a : Word} {s : State} (h : memWord (intercept s a) a = 0x0000) :
    putsFrom (fuel + 1) a s = hostFlush (clearPending (intercept s a)) :=
  if_pos h

/-- A nonzero word: its low byte, a stop point, then the next word (43_trap.md R285). -/
theorem putsFrom_more (fuel : Nat) {a : Word} {s : State} (h : memWord (intercept s a) a ≠ 0x0000) :
    putsFrom (fuel + 1) a s =
      stopPoint (hostWrite (intercept s a) (lowByte (memWord (intercept s a) a))) fun t =>
        putsFrom fuel (a + 1) t :=
  if_neg h

/-- A zero word ends PUTSP (43_trap.md R287). -/
theorem putspFrom_stop (fuel : Nat) {a : Word} {s : State} (h : memWord (intercept s a) a = 0x0000) :
    putspFrom (fuel + 1) a s = hostFlush (clearPending (intercept s a)) :=
  if_pos h

/-- A nonzero word: its low byte, its high byte if not 0x00, then the next word (43_trap.md R287). -/
theorem putspFrom_more (fuel : Nat) {a : Word} {s : State} (h : memWord (intercept s a) a ≠ 0x0000) :
    putspFrom (fuel + 1) a s =
      stopPoint (hostWrite (intercept s a) (lowByte (memWord (intercept s a) a))) fun t =>
        writeHighByte (memWord (intercept s a) a) t fun u => putspFrom fuel (a + 1) u :=
  if_neg h

/-! ### What a service keeps -/

/-- What every trap service keeps: general registers but R0, pc, the fault record, output only
grows, the host's answers are used up in order, memory keeps its canonical form, a service is left
in progress only by a running machine. -/
structure ServiceKeeps (s t : State) : Prop where
  regs : ∀ q, q ≠ .r0 → readReg t q = readReg s q
  pc : t.pc = s.pc
  fault : t.fault = s.fault
  output : ∃ new, t.output = s.output ++ new
  answers : ∃ k, AnswersTaken k s t
  mem : Memory.wf s.mem = true → Memory.wf t.mem = true
  memory : ∀ a, a ≠ Config.kbsrAddr → a ≠ Config.kbdrAddr → memWord t a = memWord s a
  run : (t.run = s.run ∧ (s.interruptIn = none → t.interruptIn = none)) ∨
    (s.interruptIn ≠ none ∧ t.run = .halted .externalInterrupt ∧ t.pending = none)

namespace ServiceKeeps

variable {s t u : State}

theorem refl (s : State) : ServiceKeeps s s where
  regs _ _ := rfl
  pc := rfl
  fault := rfl
  output := ⟨[], by simp⟩
  answers := ⟨0, .refl s⟩
  mem := id
  memory _ _ _ := rfl
  run := .inl ⟨rfl, id⟩

/-- A part of a service that goes on (run and the absence of an interrupt kept), then the rest of it. -/
theorem trans (h : ServiceKeeps s t) (hrun : t.run = s.run ∧ (s.interruptIn = none → t.interruptIn = none))
    (k : ServiceKeeps t u) : ServiceKeeps s u where
  regs q hq := (k.regs q hq).trans (h.regs q hq)
  pc := k.pc.trans h.pc
  fault := k.fault.trans h.fault
  output := by
    obtain ⟨new, hn⟩ := h.output
    obtain ⟨more, hm⟩ := k.output
    exact ⟨new ++ more, by rw [hm, hn, List.append_assoc]⟩
  answers := by
    obtain ⟨_, ht⟩ := h.answers
    obtain ⟨_, hm⟩ := k.answers
    exact ⟨_, ht.trans hm⟩
  mem hs := k.mem (h.mem hs)
  memory a ha hb := (k.memory a ha hb).trans (h.memory a ha hb)
  run := by
    rcases k.run with ⟨hk, hk'⟩ | ⟨hk, hk'⟩
    · exact .inl ⟨hk.trans hrun.1, fun hs => hk' (hrun.2 hs)⟩
    · exact .inr ⟨fun hs => hk (hrun.2 hs), hk'⟩

end ServiceKeeps

theorem hostTryRead_keeps (s : State) : ServiceKeeps s (hostTryRead s).2 := by
  have ht := hostTryRead_taken s
  obtain ⟨rest, tail, h⟩ := hostTryRead_snd s
  rw [h] at ht ⊢
  exact { ServiceKeeps.refl s with answers := ⟨1, ht⟩ }

theorem memWrite_kbsr_keeps (s : State) (v : Word) : ServiceKeeps s (memWrite s Config.kbsrAddr v) :=
  { ServiceKeeps.refl s with
    mem := fun hs => wf_memWrite _ _ hs
    memory := fun a ha _ => by simp [ha] }

theorem memWrite_kbdr_keeps (s : State) (v : Word) : ServiceKeeps s (memWrite s Config.kbdrAddr v) :=
  { ServiceKeeps.refl s with
    mem := fun hs => wf_memWrite _ _ hs
    memory := fun a _ hb => by simp [hb] }

/-- A read keeps all of that, and run and interruptIn as well. -/
theorem intercept_keeps (s : State) (a : Word) : ServiceKeeps s (intercept s a) := by
  by_cases h : a = Config.kbsrAddr
  · simp only [intercept, h, if_true]
    have hk := hostTryRead_keeps s
    obtain ⟨rest, tail, hrest⟩ := hostTryRead_snd s
    match hr : hostTryRead s with
    | (some w, t) =>
      rw [hr] at hk hrest
      subst hrest
      rw [pollKeyboard_some hr]
      exact hk.trans ⟨rfl, id⟩ ((memWrite_kbsr_keeps _ _).trans ⟨rfl, id⟩ (memWrite_kbdr_keeps _ _))
    | (none, t) =>
      rw [hr] at hk hrest
      subst hrest
      rw [pollKeyboard_none hr]
      exact hk.trans ⟨rfl, id⟩ (memWrite_kbsr_keeps _ _)
  · rw [intercept_of_ne h]
    exact ServiceKeeps.refl s

theorem hostWrite_keeps (s : State) (b : Byte) : ServiceKeeps s (hostWrite s b) :=
  { ServiceKeeps.refl s with output := ⟨[.byte b], rfl⟩ }

theorem hostFlush_keeps (s : State) : ServiceKeeps s (hostFlush s) :=
  { ServiceKeeps.refl s with output := ⟨[.flush], rfl⟩ }

theorem leavePending_keeps (s : State) (service : Pending) : ServiceKeeps s (leavePending s service) :=
  { ServiceKeeps.refl s with run := .inl ⟨rfl, id⟩ }

theorem clearPending_keeps (s : State) : ServiceKeeps s (clearPending s) :=
  { ServiceKeeps.refl s with run := .inl ⟨rfl, id⟩ }

theorem passStopPoint_keeps (s : State) : ServiceKeeps s (passStopPoint s) :=
  { ServiceKeeps.refl s with run := .inl ⟨rfl, fun h => by simp [h]⟩ }

theorem takeInterrupt_keeps {s : State} (h : s.interruptIn ≠ none) : ServiceKeeps s (takeInterrupt s) :=
  { ServiceKeeps.refl s with run := .inr ⟨h, rfl, rfl⟩ }

/-- A stop point: either the interrupt is taken there or the rest is performed. -/
theorem stopPoint_keeps {s : State} {rest : State → State}
    (h : ServiceKeeps (passStopPoint s) (rest (passStopPoint s))) : ServiceKeeps s (stopPoint s rest) := by
  unfold stopPoint
  split
  · next hi => exact takeInterrupt_keeps fun hn => by simp [interruptHere, hn] at hi
  · exact (passStopPoint_keeps s).trans ⟨rfl, fun h => by simp [h]⟩ h

/-- A parameter text, written up to the interrupt or whole. -/
theorem hostWriteText_keeps (s : State) (text : List Byte) {rest : State → State}
    (h : ∀ t, ServiceKeeps t (rest t)) : ServiceKeeps s (hostWriteText s text rest) := by
  induction text generalizing s with
  | nil => rw [hostWriteText_nil]; exact h s
  | cons b text ih =>
    rw [hostWriteText_cons]
    exact (hostWrite_keeps s b).trans ⟨rfl, id⟩ (stopPoint_keeps (ih _))

theorem deliverInput_keeps (s : State) (w : Word) : ServiceKeeps s (deliverInput s w) :=
  { ServiceKeeps.refl s with
    regs := fun q hq => by simp [deliverInput, writeAndSetcc, hq] }

/-- GETC from its read on (43_trap.md R283). -/
theorem getcRead_keeps (s : State) : ServiceKeeps s (getcRead s) := by
  have hk := hostTryRead_keeps s
  obtain ⟨rest, tail, hrest⟩ := hostTryRead_snd s
  unfold getcRead
  match hr : hostTryRead s with
  | (some w, t) =>
    rw [hr] at hk hrest
    subst hrest
    exact hk.trans ⟨rfl, id⟩ ((clearPending_keeps _).trans ⟨rfl, id⟩ (deliverInput_keeps _ _))
  | (none, t) =>
    rw [hr] at hk hrest
    subst hrest
    exact hk.trans ⟨rfl, id⟩ (leavePending_keeps _ _)

/-- IN from its read on (43_trap.md R286). -/
theorem inRead_keeps (s : State) : ServiceKeeps s (inRead s) := by
  have hk := hostTryRead_keeps s
  obtain ⟨rest, tail, hrest⟩ := hostTryRead_snd s
  unfold inRead
  match hr : hostTryRead s with
  | (some w, t) =>
    rw [hr] at hk hrest
    subst hrest
    exact hk.trans ⟨rfl, id⟩ ((clearPending_keeps _).trans ⟨rfl, id⟩ ((hostWrite_keeps _ _).trans ⟨rfl, id⟩
      (stopPoint_keeps ((hostFlush_keeps _).trans ⟨rfl, id⟩ (deliverInput_keeps _ _)))))
  | (none, t) =>
    rw [hr] at hk hrest
    subst hrest
    exact hk.trans ⟨rfl, id⟩ (leavePending_keeps _ _)

/-- PUTS from any string word on (43_trap.md R285). -/
theorem putsFrom_keeps (fuel : Nat) (a : Word) (s : State) : ServiceKeeps s (putsFrom fuel a s) := by
  induction fuel generalizing a s with
  | zero => exact leavePending_keeps s _
  | succ fuel ih =>
    have hi : (intercept s a).run = s.run ∧ (s.interruptIn = none → (intercept s a).interruptIn = none) := by
      simp
    by_cases hz : memWord (intercept s a) a = 0x0000
    · rw [putsFrom_stop fuel hz]
      exact (intercept_keeps s a).trans hi
        ((clearPending_keeps _).trans ⟨rfl, id⟩ (hostFlush_keeps _))
    · rw [putsFrom_more fuel hz]
      exact (intercept_keeps s a).trans hi
        ((hostWrite_keeps _ _).trans ⟨rfl, id⟩ (stopPoint_keeps (ih _ _)))

theorem writeHighByte_keeps (w : Word) (s : State) {rest : State → State}
    (h : ∀ t, ServiceKeeps t (rest t)) : ServiceKeeps s (writeHighByte w s rest) := by
  unfold writeHighByte
  split
  · exact h s
  · exact (hostWrite_keeps _ _).trans ⟨rfl, id⟩ (stopPoint_keeps (h _))

/-- PUTSP from any string word on (43_trap.md R287). -/
theorem putspFrom_keeps (fuel : Nat) (a : Word) (s : State) : ServiceKeeps s (putspFrom fuel a s) := by
  induction fuel generalizing a s with
  | zero => exact leavePending_keeps s _
  | succ fuel ih =>
    have hi : (intercept s a).run = s.run ∧ (s.interruptIn = none → (intercept s a).interruptIn = none) := by
      simp
    by_cases hz : memWord (intercept s a) a = 0x0000
    · rw [putspFrom_stop fuel hz]
      exact (intercept_keeps s a).trans hi
        ((clearPending_keeps _).trans ⟨rfl, id⟩ (hostFlush_keeps _))
    · rw [putspFrom_more fuel hz]
      exact (intercept_keeps s a).trans hi
        ((hostWrite_keeps _ _).trans ⟨rfl, id⟩
          (stopPoint_keeps (writeHighByte_keeps _ _ fun t => ih _ t)))

/-- A service that goes on after an earlier step (log 7, 9). -/
theorem resume_keeps (service : Pending) (s : State) : ServiceKeeps s (resume service s) := by
  cases service with
  | getc => exact getcRead_keeps s
  | inRead => exact inRead_keeps s
  | puts a => exact putsFrom_keeps _ a s
  | putsp a => exact putspFrom_keeps _ a s

/-! ### String output leaves the registers and cond -/

/-- A stop point leaves what both its sides leave. -/
theorem stopPoint_regs_cond {s : State} {rest : State → State}
    (h : (rest (passStopPoint s)).regs = s.regs ∧ (rest (passStopPoint s)).cond = s.cond) :
    (stopPoint s rest).regs = s.regs ∧ (stopPoint s rest).cond = s.cond := by
  unfold stopPoint
  split
  · exact ⟨rfl, rfl⟩
  · exact h

/-- PUTS writes no register and not cond (43_trap.md R285). -/
theorem putsFrom_regs_cond (fuel : Nat) (a : Word) (s : State) :
    (putsFrom fuel a s).regs = s.regs ∧ (putsFrom fuel a s).cond = s.cond := by
  induction fuel generalizing a s with
  | zero => exact ⟨rfl, rfl⟩
  | succ fuel ih =>
    by_cases hz : memWord (intercept s a) a = 0x0000
    · rw [putsFrom_stop fuel hz]
      exact ⟨intercept_regs s a, intercept_cond s a⟩
    · rw [putsFrom_more fuel hz, ← intercept_regs s a, ← intercept_cond s a]
      exact stopPoint_regs_cond (ih _ _)

/-- PUTSP writes no register and not cond (43_trap.md R287). -/
theorem putspFrom_regs_cond (fuel : Nat) (a : Word) (s : State) :
    (putspFrom fuel a s).regs = s.regs ∧ (putspFrom fuel a s).cond = s.cond := by
  induction fuel generalizing a s with
  | zero => exact ⟨rfl, rfl⟩
  | succ fuel ih =>
    by_cases hz : memWord (intercept s a) a = 0x0000
    · rw [putspFrom_stop fuel hz]
      exact ⟨intercept_regs s a, intercept_cond s a⟩
    · rw [putspFrom_more fuel hz, ← intercept_regs s a, ← intercept_cond s a]
      refine stopPoint_regs_cond ?_
      unfold writeHighByte
      split
      · exact ih _ _
      · exact stopPoint_regs_cond (ih _ _)

/-- HALT writes no register and not cond (43_trap.md R290). -/
theorem haltText_regs_cond (s : State) (text : List Byte) :
    (hostWriteText s text fun t => haltRun (hostFlush t) .halt).regs = s.regs ∧
      (hostWriteText s text fun t => haltRun (hostFlush t) .halt).cond = s.cond := by
  induction text generalizing s with
  | nil => rw [hostWriteText_nil]; exact ⟨rfl, rfl⟩
  | cons b text ih => rw [hostWriteText_cons]; exact stopPoint_regs_cond (s := hostWrite s b) (ih _)

/-! ### Character input leaves memory -/

/-- A request for a byte writes no memory. -/
theorem hostTryRead_mem (s : State) : (hostTryRead s).2.mem = s.mem := by
  obtain ⟨_, _, h⟩ := hostTryRead_snd s
  rw [h]

/-- GETC writes no memory (43_trap.md R283; 20_memory.md R82). -/
theorem getcRead_mem (s : State) : (getcRead s).mem = s.mem := by
  have h := hostTryRead_mem s
  unfold getcRead
  match hr : hostTryRead s with
  | (some _, _) => rw [hr] at h; exact h
  | (none, _) => rw [hr] at h; exact h

/-- IN writes no memory from its read on (43_trap.md R286; 20_memory.md R82). -/
theorem inRead_mem (s : State) : (inRead s).mem = s.mem := by
  have h := hostTryRead_mem s
  unfold inRead
  match hr : hostTryRead s with
  | (some _, _) =>
    rw [hr] at h
    simp only [stopPoint]
    split <;> exact h
  | (none, _) => rw [hr] at h; exact h

/-- A parameter text writes no memory. -/
theorem hostWriteText_mem (s : State) (text : List Byte) {rest : State → State}
    (h : ∀ t, (rest t).mem = t.mem) : (hostWriteText s text rest).mem = s.mem := by
  unfold hostWriteText
  split
  · exact h _
  · split
    · rfl
    · exact h _

end Sys2Proof.Machine
end

