-- ==== Sys2Proof/Tests/Slice0.lean ====
section
/-! SUPPORT. The model's own tests. Expected values are the spec's: the rows of 95_test_vectors.md (named W, V-OP,
V-CT, V-LS, V-TR, V-IL, V-RS, V-EX in the comments) and 30_encoding.md. Then a witness for every obligation that
has hypotheses. -/

namespace Sys2Proof.Tests

open Sys2Proof.Machine

/-! ### The states of the tests -/

/-- A machine at `pc` with these registers and words written over the reset state. -/
def start (pc : Word) (regs : List (Reg × Word)) (words : List (Word × Word)) : State :=
  setPc (words.foldl (fun s w => memWrite s w.1 w.2)
    (regs.foldl (fun s r => writeReg s r.1 r.2) State.reset)) pc

/-- That machine with host input to come. -/
def given (s : State) (input : List InputEvent) : State := { s with input := input }

/-- That machine with what comes after its listed input. -/
def followed (s : State) (tail : InputTail) : State := { s with inputTail := tail }

/-- That machine with a condition. -/
def flagged (s : State) (c : Cond) : State := { s with cond := c }

/-- That machine with the external interrupt after so many stop points. -/
def stopping (s : State) (n : Nat) : State := { s with interruptIn := some n }

/-- The next state of an outcome, if it is one. -/
def next? : Host.Outcome State Fault Refusal → Option State
  | .next t => some t
  | _ => none

/-- One step with the instruction word placed at pc. -/
def run (s : State) (w : Nat) : Option State := next? (step (s.withFetchWord 16 w))

/-! ### WellFormed -/

/-- The one check: a vector of `trapUnknown` outside 0x20 .. 0x25 (43_trap.md R291). -/
theorem test_wellFormed_refuses_service_vectors :
    (Instr.trapUnknown 0 0x20).wellFormed = false ∧ (Instr.trapUnknown 0xF 0x25).wellFormed = false ∧
      (Instr.trapUnknown 0 0x1F).wellFormed = true ∧ (Instr.trapUnknown 0 0x26).wellFormed = true := by
  decide

/-! ### Decoding: a word written out from 30_encoding.md for each constructor -/

/-- BRz #2 (V-CT1), BRn #-1 (V-CT8). -/
theorem test_decode_br : decode 0b0000_010_000000010 = .br 0b010 2 ∧
    decode 0b0000_100_111111111 = .br 0b100 0x1FF := by decide

/-- ADD R0,R1,R2 with ir[4:3] = 11 (V-OP4); ADD R0,R1,#-1 (W4). -/
theorem test_decode_add : decode 0b0001_000_001_0_11_010 = .addReg .r0 .r1 .r2 0b11 ∧
    decode 0b0001_000_001_1_11111 = .addImm .r0 .r1 0x1F := by decide

/-- AND R2,R3,R4 (V-OP9); AND R0,R1,#15 (V-OP13). -/
theorem test_decode_and : decode 0b0101_010_011_0_00_100 = .andReg .r2 .r3 .r4 0 ∧
    decode 0b0101_000_001_1_01111 = .andImm .r0 .r1 15 := by decide

/-- NOT R4,R5 (V-OP14). -/
theorem test_decode_not : decode 0b1001_100_101_111111 = .notReg .r4 .r5 0x3F := by decide

/-- JMP R2 with ir[11:9] = 111 (V-CT13); RET (V-CT12). -/
theorem test_decode_jmp : decode 0b1100_111_010_000000 = .jmp .r2 0b111 0 ∧
    decode 0b1100_000_111_000000 = .jmp .r7 0 0 := by decide

/-- JSR #-1024 (V-CT16); JSRR R3 (V-CT19). -/
theorem test_decode_jsr_jsrr : decode 0b0100_1_10000000000 = .jsr 0x400 ∧
    decode 0b0100_0_00_011_000000 = .jsrr .r3 0 0 := by decide

/-- LD R1,#5 (V-LS1); LDI R2,#0 (V-LS6); LDR R4,R5,#-2 (V-LS9). -/
theorem test_decode_loads : decode 0b0010_001_000000101 = .ld .r1 5 ∧
    decode 0b1010_010_000000000 = .ldi .r2 0 ∧ decode 0b0110_100_101_111110 = .ldr .r4 .r5 0x3E := by decide

/-- LEA R0,#-3 (V-LS13). -/
theorem test_decode_lea : decode 0b1110_000_111111101 = .lea .r0 0x1FD := by decide

/-- ST R3,#2 (V-LS16); STI R1,#1 (V-LS17); STR R7,R6,#-1 (V-LS20). -/
theorem test_decode_stores : decode 0b0011_011_000000010 = .st .r3 2 ∧
    decode 0b1011_001_000000001 = .sti .r1 1 ∧ decode 0b0111_111_110_111111 = .str .r7 .r6 0x3F := by decide

/-- The six service vectors; 0xF525 is HALT (V-TR15); vectors 0x1F and 0x26 are unknown. -/
theorem test_decode_trap :
    decode 0b1111_0000_00100000 = .trapGetc 0 ∧ decode 0b1111_0000_00100001 = .trapOut 0 ∧
      decode 0b1111_0000_00100010 = .trapPuts 0 ∧ decode 0b1111_0000_00100011 = .trapIn 0 ∧
      decode 0b1111_0000_00100100 = .trapPutsp 0 ∧ decode 0b1111_0101_00100101 = .trapHalt 5 ∧
      decode 0b1111_0000_00011111 = .trapUnknown 0 0x1F ∧
      decode 0b1111_0000_00100110 = .trapUnknown 0 0x26 := by decide

/-- RTI (V-IL3); RES with any low bits (V-IL2). -/
theorem test_decode_illegal : decode 0b1000_000000000000 = .rti 0 ∧
    decode 0b1101_111111111111 = .res 0xFFF := by decide

/-- The table's rows give at most 16 bits; a longer word is not an instruction of this machine. -/
theorem test_decodeTableWord : decodeTableWord 16 0x1042 = some (.addReg .r0 .r1 .r2 0) ∧
    decodeTableWord 17 0x1042 = none := by decide

/-! ### Operate (95_test_vectors.md 2.1) -/

/-- V-OP1, V-OP2: wraps to N; the carry is discarded. -/
theorem test_add_register :
    (run (start 0x3000 [(.r1, 0x7FFF), (.r2, 1)] []) 0x1042).map (fun t => (readReg t .r0, t.pc, t.cond)) =
      some (0x8000, 0x3001, .n) ∧
    (run (start 0x3000 [(.r1, 0xFFFF), (.r2, 1)] []) 0x1042).map (fun t => (readReg t .r0, t.cond)) =
      some (0x0000, .z) := by decide

/-- V-OP3: source and destination the same. -/
theorem test_add_register_same :
    (run (start 0x3000 [(.r1, 3)] []) 0x1249).map (fun t => (readReg t .r1, t.cond)) = some (6, .p) := by
  decide

/-- W3, V-OP6: imm5 = 5 and imm5 = -16. -/
theorem test_add_immediate :
    (run (start 0x3000 [(.r1, 10)] []) 0x1065).map (fun t => (readReg t .r0, t.cond)) = some (15, .p) ∧
      (run (start 0x3000 [] []) 0x1070).map (fun t => (readReg t .r0, t.cond)) = some (0xFFF0, .n) := by
  decide

/-- V-OP7: 0x8005 - 16 wraps. -/
theorem test_add_immediate_wraps :
    (run (start 0x3000 [(.r1, 0x8005)] []) 0x1070).map (fun t => (readReg t .r0, t.cond)) =
      some (0x7FF5, .p) := by decide

/-- V-OP9. -/
theorem test_and_register :
    (run (start 0x3000 [(.r3, 0xF0F0), (.r4, 0x3C3C)] []) 0x54C4).map
      (fun t => (readReg t .r2, t.pc, t.cond)) = some (0x3030, 0x3001, .p) := by decide

/-- V-OP11, V-OP12. -/
theorem test_and_immediate :
    (run (start 0x3000 [(.r1, 0x8001)] []) 0x507F).map (fun t => (readReg t .r0, t.cond)) =
      some (0x8001, .n) ∧
    (run (start 0x3000 [(.r0, 0xABCD)] []) 0x5020).map (fun t => (readReg t .r0, t.cond)) =
      some (0x0000, .z) := by decide

/-- V-OP14, V-OP16 (ir[5:0] = 0 is still NOT). -/
theorem test_not :
    (run (start 0x3000 [(.r5, 0x00FF)] []) 0x997F).map (fun t => (readReg t .r4, t.cond)) =
      some (0xFF00, .n) ∧
    (run (start 0x3000 [] []) 0x9040).map (fun t => (readReg t .r0, t.cond)) = some (0xFFFF, .n) := by
  decide

/-! ### Control transfer (95_test_vectors.md 2.2) -/

/-- V-CT1, V-CT2, V-CT4: taken, not taken, never taken. -/
theorem test_br :
    (run (start 0x3005 [] []) 0x0402).map (·.pc) = some 0x3008 ∧
      (run (flagged (start 0x3005 [] []) .p) 0x0402).map (·.pc) = some 0x3006 ∧
      (run (flagged (start 0x3000 [] []) .n) 0x0005).map (·.pc) = some 0x3001 := by decide

/-- V-CT7, V-CT9, V-CT10: wrap at the top, the smallest and the largest offset. -/
theorem test_br_wraps :
    (run (flagged (start 0xFFFF [] []) .p) 0x0FFF).map (·.pc) = some 0xFFFF ∧
      (run (flagged (start 0x3000 [] []) .p) 0x0300).map (·.pc) = some 0x2F01 ∧
      (run (flagged (start 0x3000 [] []) .p) 0x02FF).map (·.pc) = some 0x3100 := by decide

/-- V-CT12, V-CT13. -/
theorem test_jmp :
    (run (start 0x3000 [(.r7, 0x3456)] []) 0xC1C0).map (·.pc) = some 0x3456 ∧
      (run (start 0x3000 [(.r2, 0x4001)] []) 0xCE80).map (·.pc) = some 0x4001 := by decide

/-- V-CT14, V-CT16, V-CT18. -/
theorem test_jsr :
    (run (start 0x3000 [] []) 0x4810).map (fun t => (readReg t .r7, t.pc)) = some (0x3001, 0x3011) ∧
      (run (start 0x3000 [] []) 0x4C00).map (fun t => (readReg t .r7, t.pc)) = some (0x3001, 0x2C01) ∧
      (run (start 0x0000 [] []) 0x4FFE).map (fun t => (readReg t .r7, t.pc)) = some (0x0001, 0xFFFF) := by
  decide

/-- V-CT19, V-CT20: JSRR R7 falls through. -/
theorem test_jsrr :
    (run (start 0x3000 [(.r3, 0x5000)] []) 0x40C0).map (fun t => (readReg t .r7, t.pc)) =
      some (0x3001, 0x5000) ∧
    (run (start 0x3000 [(.r7, 0x5000)] []) 0x41C0).map (fun t => (readReg t .r7, t.pc)) =
      some (0x3001, 0x3001) := by decide

/-! ### Loads and stores (95_test_vectors.md 2.3) -/

/-- V-LS4, V-LS5: the smallest offset; the address wraps. -/
theorem test_ld :
    (run (start 0x3000 [] [(0x2F01, 0x0042)]) 0x2300).map (fun t => (readReg t .r1, t.cond)) =
      some (0x0042, .p) ∧
    (run (start 0xFFFE [] [(0x0000, 0x0777)]) 0x2001).map (fun t => (readReg t .r0, t.pc)) =
      some (0x0777, 0xFFFF) := by decide

/-- V-LS6 (W6). -/
theorem test_ldi :
    (run (start 0x3000 [] [(0x3001, 0x3100), (0x3100, 0x1234)]) 0xA400).map
      (fun t => (readReg t .r2, t.cond)) = some (0x1234, .p) := by decide

/-- V-LS7, V-LS8: through KBSR, with and without input. -/
theorem test_ldi_polls :
    (run (given (start 0x3000 [] [(0x3001, 0xFE00)]) [.byte 0x6B]) 0xA400).map
      (fun t => (readReg t .r2, t.cond, memWord t 0xFE00, memWord t 0xFE02)) =
        some (0x8000, .n, 0x8000, 0x006B) ∧
    (run (start 0x3000 [] [(0x3001, 0xFE00), (0xFE00, 0x8000)]) 0xA400).map
      (fun t => (readReg t .r2, t.cond, memWord t 0xFE00)) = some (0x0000, .z, 0x0000) := by decide

/-- V-LS9, V-LS10, V-LS11. -/
theorem test_ldr :
    (run (start 0x3000 [(.r5, 0x4000)] [(0x3FFE, 0xFFFF)]) 0x697E).map (fun t => (readReg t .r4, t.cond)) =
      some (0xFFFF, .n) ∧
    (run (start 0x3000 [(.r1, 0x4000)] [(0x3FE0, 1)]) 0x6060).map (fun t => readReg t .r0) = some 1 ∧
    (run (start 0x3000 [(.r1, 0xFFFF)] [(0x0000, 9)]) 0x6041).map (fun t => readReg t .r0) = some 9 := by
  decide

/-- V-LS12: a read of KBDR has no side effect, a byte to come stays. -/
theorem test_ldr_kbdr :
    (run (given (start 0x3000 [(.r1, 0xFE02)] [(0xFE00, 0x8000), (0xFE02, 0x61)]) [.byte 0x7A]) 0x6040).map
      (fun t => (readReg t .r0, memWord t 0xFE00, t.input)) = some (0x61, 0x8000, [.byte 0x7A]) := by decide

/-- V-LS13, V-LS14, V-LS15: the flags are set. -/
theorem test_lea :
    (run (start 0x3010 [] []) 0xE1FD).map (fun t => (readReg t .r0, t.cond)) = some (0x300E, .p) ∧
      (run (flagged (start 0xFFFE [] []) .p) 0xE001).map (fun t => (readReg t .r0, t.cond)) =
        some (0x0000, .z) ∧
      (run (start 0x7F00 [] []) 0xE0FF).map (fun t => (readReg t .r0, t.cond)) = some (0x8000, .n) := by
  decide

/-- V-LS16. -/
theorem test_st :
    (run (start 0x3000 [(.r3, 0xCAFE)] []) 0x3602).map (fun t => (memWord t 0x3003, t.cond, t.pc)) =
      some (0xCAFE, .z, 0x3001) := by decide

/-- V-LS17, V-LS18: the write to KBSR does not poll. -/
theorem test_sti :
    (run (start 0x3000 [(.r1, 0x55)] [(0x3002, 0x4000)]) 0xB201).map (fun t => (memWord t 0x4000, t.cond)) =
      some (0x55, .z) ∧
    (run (given (start 0x3000 [(.r1, 0x55)] [(0x3002, 0xFE00)]) [.byte 0x7A]) 0xB201).map
      (fun t => (memWord t 0xFE00, memWord t 0xFE02, t.input)) = some (0x55, 0, [.byte 0x7A]) := by decide

/-- V-LS20, V-LS21. -/
theorem test_str :
    (run (start 0x3000 [(.r6, 0x6000), (.r7, 0x2000)] []) 0x7FBF).map (fun t => memWord t 0x5FFF) =
      some 0x2000 ∧
    (run (start 0x3000 [(.r0, 0x1234), (.r1, 0xFE00)] []) 0x7040).map (fun t => memWord t 0xFE00) =
      some 0x1234 := by decide

/-! ### Traps (95_test_vectors.md 2.4) -/

/-- V-TR2, V-TR3: no echo; zero-extended. -/
theorem test_getc :
    (run (given (flagged (start 0x3000 [] []) .p) [.byte 0x00]) 0xF020).map
      (fun t => (readReg t .r0, t.cond, t.output)) = some (0x0000, .z, []) ∧
    (run (given (start 0x3000 [] []) [.byte 0xFF]) 0xF020).map
      (fun t => (readReg t .r0, t.cond, t.pc)) = some (0x00FF, .p, 0x3001) := by decide

/-- An input that never ends (log 6): the two answers come over and over. -/
theorem test_getc_repeats :
    (run (followed (start 0x3000 [] []) (.repeats (.byte 0x61) [.byte 0x62])) 0xF020).map
      (fun t => (readReg t .r0, answer t 0, answer t 1, answer t 2)) =
        some (0x0061, some (.byte 0x62), some (.byte 0x61), some (.byte 0x62)) := by decide

/-- V-TR4: with no input the step holds. -/
theorem test_getc_holds :
    (run (start 0x3000 [] []) 0xF020).map (fun t => (t.pc, t.cond, t.run, t.pending)) =
      some (0x3001, .z, .running, some .getc) := by decide

/-- V-TR5, V-TR19: the low byte; x7 is not written. -/
theorem test_out :
    (run (start 0x3000 [(.r0, 0x1241), (.r7, 0x1357)] []) 0xF021).map
      (fun t => (t.output, readReg t .r7, t.cond, t.pc)) =
        some ([.byte 0x41, .flush], 0x1357, .z, 0x3001) := by decide

/-- V-TR6 (W7), V-TR8. -/
theorem test_puts :
    (run (start 0x3000 [(.r0, 0x4000)]
        [(0x4000, 0x0048), (0x4001, 0x0069), (0x4003, 0x0058)]) 0xF022).map (fun t => (t.output, t.cond)) =
      some ([.byte 0x48, .byte 0x69, .flush], .z) ∧
    (run (start 0x3000 [(.r0, 0x4000)] [(0x4000, 0x0100), (0x4001, 0x4142)]) 0xF022).map (·.output) =
      some [.byte 0x00, .byte 0x42, .flush] := by decide

/-- V-TR9, V-TR10: the address wraps; a string through KBSR with no input ends there. -/
theorem test_puts_wraps_and_polls :
    (run (start 0x3000 [(.r0, 0xFFFF)] [(0x0000, 0x42), (0xFFFF, 0x41)]) 0xF022).map (·.output) =
      some [.byte 0x41, .byte 0x42, .flush] ∧
    (run (start 0x3000 [(.r0, 0xFDFF)] [(0xFDFF, 0x41), (0xFE00, 0x1234), (0xFE01, 0x43)]) 0xF022).map
      (fun t => (t.output, memWord t 0xFE00)) = some ([.byte 0x41, .flush], 0x0000) := by decide

/-- V-TR11: the read, the echo, x0 and cond; the prompt is an OPEN parameter. -/
theorem test_in :
    (run (given (start 0x3000 [] []) [.byte 0x37]) 0xF023).map
      (fun t => (readReg t .r0, t.cond, t.pc, t.input)) = some (0x0037, .p, 0x3001, []) := by decide

/-- V-TR12, V-TR13. -/
theorem test_putsp :
    (run (start 0x3000 [(.r0, 0x4100)] [(0x4100, 0x6948), (0x4101, 0x0021)]) 0xF024).map (·.output) =
      some [.byte 0x48, .byte 0x69, .byte 0x21, .flush] ∧
    (run (start 0x3000 [(.r0, 0x4100)] [(0x4100, 0x4100)]) 0xF024).map (·.output) =
      some [.byte 0x00, .byte 0x41, .flush] := by decide

/-- V-TR14, V-TR15. -/
theorem test_halt :
    (run (start 0x3002 [] []) 0xF025).map (fun t => (t.run, t.fault, t.pc, t.cond)) =
      some (.halted .halt, none, 0x3003, .z) ∧
    (run (start 0x3000 [] []) 0xF525).map (·.run) = some (.halted .halt) := by decide

/-- V-TR16, V-TR18. -/
theorem test_unknown_trap :
    (run (start 0x3000 [] []) 0xF026).map (fun t => (t.run, t.fault, t.pc)) =
      some (.halted .unknownTrap, some ⟨.unknownTrap, 0xF026, 0x3000⟩, 0x3001) ∧
    (run (start 0x3000 [] []) 0xF0FF).map (·.fault) = some (some ⟨.unknownTrap, 0xF0FF, 0x3000⟩) := by
  decide

/-! ### Illegal opcodes and the fetch at KBSR (95_test_vectors.md 2.5) -/

/-- V-IL3. -/
theorem test_rti :
    (run (start 0x3000 [] []) 0x8000).map (fun t => (t.run, t.fault, t.pc)) =
      some (.halted .illegalOpcode, some ⟨.illegalOpcode, 0x8000, 0x3000⟩, 0x3001) := by decide

/-- V-IL2, V-IL6: any low bits; the fault address at the top of memory. -/
theorem test_res :
    (run (start 0x3000 [] []) 0xDFFF).map (·.fault) = some (some ⟨.illegalOpcode, 0xDFFF, 0x3000⟩) ∧
      (run (start 0xFFFF [] []) 0xD000).map (fun t => (t.fault, t.pc, t.run)) =
        some (some ⟨.illegalOpcode, 0xD000, 0xFFFF⟩, 0x0000, .halted .illegalOpcode) := by decide

/-- V-IL4, V-IL5. -/
theorem test_fetch_at_kbsr :
    (run (given (start 0xFE00 [] []) [.byte 0x71]) 0x1234).map
      (fun t => (t.fault, t.pc, memWord t 0xFE00, memWord t 0xFE02)) =
        some (some ⟨.illegalOpcode, 0x8000, 0xFE00⟩, 0xFE01, 0x8000, 0x0071) ∧
    (run (start 0xFE00 [] []) 0x1234).map (fun t => (t.fault, t.pc, memWord t 0xFE00)) =
      some (none, 0xFE01, 0x0000) := by decide

/-! ### Reset and images (95_test_vectors.md 2.6) -/

/-- V-RS1, with GPR_ZERO_INIT (log 1). -/
theorem test_reset : State.reset.pc = 0x3000 ∧ State.reset.cond = .z ∧ State.reset.run = .running ∧
    State.reset.fault = none ∧ readReg State.reset .r5 = 0x0000 := by decide

/-- V-RS2 (W8), V-RS3, V-RS4. -/
theorem test_image :
    (loadImage [] [0x30, 0x00, 0x12, 0x34, 0xAB, 0xCD, 0x00, 0x01]).toOption =
      some [(0x3000, 0x1234), (0x3001, 0xABCD), (0x3002, 0x0001)] ∧
    (loadImage [] [0xFF, 0xFF, 0x11, 0x11, 0x22, 0x22]).toOption = some [(0xFFFF, 0x1111)] ∧
    (loadImage [] [0x40, 0x00, 0x00, 0x41, 0x7F]).toOption = some [(0x4000, 0x0041)] := by decide

/-- V-RS5, V-RS6: a short file fails; a later image overwrites. -/
theorem test_images :
    (boot [] [[0x30]]).toOption = none ∧
      ((boot [] [[0x30, 0x00, 0x11, 0x11, 0x22, 0x22], [0x30, 0x01, 0x33, 0x33]]).toOption.map (·.mem)) =
        some [(0x3000, 0x1111), (0x3001, 0x3333)] := by decide

/-! ### Host events (95_test_vectors.md 2.7) -/

/-- V-EX2: the interrupt between the two bytes of a string. Stop points: the step's start, then one after each
byte. -/
theorem test_interrupt_cuts_puts :
    (run (stopping (start 0x3000 [(.r0, 0x4000)] [(0x4000, 0x41), (0x4001, 0x42)]) 1) 0xF022).map
      (fun t => (t.output, t.run, t.fault)) = some ([.byte 0x41], .halted .externalInterrupt, none) := by
  decide

/-- V-EX1, from the hold on: x0 and cond as before, no fault; and V-EX7: a halted machine takes no notice. -/
theorem test_interrupt_in_a_hold :
    ((next? (step { stopping (start 0x3001 [] []) 0 with pending := some .inRead })).map
      fun t => (readReg t .r0, t.cond, t.pc, t.run, t.fault)) =
        some (0x0000, .z, 0x3001, .halted .externalInterrupt, none) ∧
    next? (step { stopping (start 0x3001 [] []) 0 with run := .halted .halt }) =
      some { stopping (start 0x3001 [] []) 0 with run := .halted .halt } := by decide

/-! ### Witnesses: the hypotheses of each obligation met together -/

theorem witness_DecodeOfEncodeIsTheInstruction :
    (Instr.trapUnknown 0xF 0x1F).wellFormed = true ∧ (Instr.trapUnknown 0 0x26).wellFormed = true ∧
      (Instr.jsrr .r7 3 0x3F).wellFormed = true := by decide

/-- W1, W2, and each side of the sign bit. -/
theorem witness_ExtensionFollowsTheSignBit :
    ((5 = 5 ∨ 5 = 6 ∨ 5 = 9 ∨ 5 = 11) ∧ 15 < 16) ∧ sext16 (0x1F : BitVec 5) = 0xFFFF ∧
      sext16 (0x0F : BitVec 5) = 0x000F ∧ (sext16 (0x10 : BitVec 5)).getLsbD 4 = true ∧
      (sext16 (0x10 : BitVec 5)).getLsbD 3 = false ∧ (zext16 0xFF).getLsbD 7 = true ∧
      (zext16 0xFF).getLsbD 8 = false := by decide

theorem witness_ResetSetsPcCondAndRun :
    (boot [] [[0x40, 0x00, 0x12, 0x34]]).toOption = some (State.resetWith [(0x4000, 0x1234)]) := by decide

/-- The last word that still fits: origin 0xFFFF, one word. -/
theorem witness_ImageLoadRoundTrip :
    (0xFFFF : Word).toNat + [(0x1234 : Word)].length ≤ 65536 ∧
      (0x3000 : Word).toNat + [(0x1234 : Word), 0xABCD].length ≤ 65536 := by decide

/-- V-RS3: word 0 of two is loaded at 0xFFFF, word 1 dropped, address 0 outside. -/
theorem witness_ImageLoadStopsAtTheTop :
    (0 < [(0x1111 : Word), 0x2222].length ∧ (0xFFFF : Word).toNat + 0 < 65536) ∧
      ¬ (0xFFFF : Word).toNat + 1 < 65536 ∧ 0 < (0xFFFF : Word).toNat := by decide

theorem witness_NoRunWithoutAnImage :
    ([] : List Byte).length < 2 ∧ [(0x30 : Byte)].length < 2 ∧ 2 ≤ [(0x30 : Byte), 0x00].length := by decide

theorem witness_SetccFollowsTheStoredValue :
    readReg State.reset .r3 = 0x0000 ∧
      (readReg (start 0 [(.r3, 0x8000)] []) .r3 ≠ 0x0000 ∧
        (readReg (start 0 [(.r3, 0x8000)] []) .r3).getLsbD 15 = true) ∧
      readReg (start 0 [(.r3, 0x7FFF)] []) .r3 ≠ 0x0000 ∧
        (readReg (start 0 [(.r3, 0x7FFF)] []) .r3).getLsbD 15 = false := by decide

/-- An instruction that changes cond, and its next state. -/
theorem witness_OnlyFlagSettersChangeCond :
    ∃ t, exec (.addImm .r0 .r0 1) State.reset = .next t ∧ t.cond ≠ State.reset.cond :=
  ⟨_, rfl, by decide⟩

theorem witness_AndImmediateWritesTheConjunction : (0 : BitVec 5) = 0 := rfl

theorem witness_LoadReadsThroughTheBridge :
    pcRelative (start 0xFE00 [] []) (1 : BitVec 9) ≠ 0xFE00 ∧
      pcRelative (start 0xFE00 [] []) (0 : BitVec 9) = 0xFE00 ∧
      pcRelative (start 0xFE01 [] []) (0x1FF : BitVec 9) = 0xFE00 := by decide

theorem witness_LoadIndirectReadsTwice :
    pcRelative (start 0x3001 [] [(0x3001, 0x3100)]) (0 : BitVec 9) ≠ 0xFE00 ∧
      memWord (start 0x3001 [] [(0x3001, 0x3100)])
        (pcRelative (start 0x3001 [] [(0x3001, 0x3100)]) (0 : BitVec 9)) ≠ 0xFE00 := by decide

theorem witness_LoadRegisterReadsThroughTheBridge :
    baseOffset (start 0x3001 [(.r5, 0xFE00)] []) .r5 1 ≠ 0xFE00 ∧
      baseOffset (start 0x3001 [(.r5, 0xFE02)] []) .r5 0 ≠ 0xFE00 := by decide

theorem witness_StoreIndirectWritesThroughThePointer :
    pcRelative (start 0x3001 [] [(0x3002, 0xFE00)]) (1 : BitVec 9) ≠ 0xFE00 := by decide

theorem witness_StoreIsSeenByTheNextFetch : State.reset.pc ≠ 0xFE00 := by decide

/-- No byte yet, and a byte, in each form of the coming input of which something is known. -/
theorem witness_host_answers :
    NoByteYet (given State.reset [.notYet, .byte 0x41]) ∧ NoByteYet State.reset ∧
      NoByteYet (followed State.reset (.repeats .notYet [.byte 0x41])) ∧
      HasByte (given State.reset [.byte 0x41]) 0x41 ∧
      HasByte (followed State.reset (.repeats (.byte 0x41) [])) 0x41 :=
  ⟨.inl rfl, .inr ⟨rfl, by decide⟩, .inl rfl, rfl, rfl⟩

theorem witness_WritesArePlainStores :
    (0xFE02 : Word) ≠ 0xFE00 ∧ NoByteYet State.reset ∧ HasByte (given State.reset [.byte 0x41]) 0x41 :=
  ⟨by decide, .inr ⟨rfl, by decide⟩, rfl⟩

theorem witness_OrdinaryReadsChangeNothing : (0xFE02 : Word) ≠ 0xFE00 ∧ (0xFDFF : Word) ≠ 0xFE00 := by decide

theorem witness_KeyboardStatusReadPolls :
    HasByte (given State.reset [.byte 0x41, .notYet]) 0x41 ∧
      NoByteYet (given State.reset [.notYet, .byte 0x41]) ∧ NoByteYet State.reset ∧
      ((0xFE01 : Word) ≠ 0xFE00 ∧ (0xFE01 : Word) ≠ 0xFE02) :=
  ⟨rfl, .inl rfl, .inr ⟨rfl, by decide⟩, by decide⟩

theorem witness_EndOfInputFollowsTheParameter :
    (followed State.reset .ended).input = [] ∧ (followed State.reset .ended).inputTail = .ended ∧
      (followed State.reset .ended).interruptIn = none := by decide

theorem witness_GetcDeliversTheByteOrHolds :
    HasByte (given State.reset [.byte 0x00]) 0x00 ∧ HasByte (given State.reset [.byte 0xFF]) 0xFF ∧
      NoByteYet State.reset :=
  ⟨rfl, rfl, .inr ⟨rfl, by decide⟩⟩

/-- The string "AB" over the wrap of the address (V-TR9), with no interrupt to come and with one right after it, and
the empty string (V-TR7). -/
theorem witness_PutsWritesTheString :
    let s := start 0x3001 [(.r0, 0xFFFF)] [(0x0000, 0x42), (0xFFFF, 0x41)]
    NoInterruptWithin s 2 ∧ StringAt s (readReg s .r0) 2 ∧
      NoInterruptWithin (stopping s 2) 2 ∧ StringAt (stopping s 2) (readReg (stopping s 2) .r0) 2 ∧
      NoInterruptWithin State.reset 0 ∧ StringAt State.reset (readReg State.reset .r0) 0 :=
  ⟨.of_none rfl 2, (by unfold StringAt; decide), .of_some rfl (by decide), (by unfold StringAt; decide),
    .of_none rfl 0, (by unfold StringAt; decide)⟩

/-- V-TR12: three bytes. -/
theorem witness_PutspWritesThePackedString :
    let s := start 0x3001 [(.r0, 0x4100)] [(0x4100, 0x6948), (0x4101, 0x0021)]
    [.byte 0x48, .byte 0x69, .byte 0x21] =
        (List.range 2).flatMap (fun k => putspEvents (stringWord s (readReg s .r0) k)) ∧
      NoInterruptWithin s 3 ∧ NoInterruptWithin (stopping s 3) 3 ∧ StringAt s (readReg s .r0) 2 :=
  ⟨by decide, .of_none rfl 3, .of_some rfl (by decide), (by unfold StringAt; decide)⟩

/-- V-TR10, and a string that begins at KBSR_ADDR. -/
theorem witness_StringEndsAtAnEmptyKeyboard :
    let s := start 0x3001 [(.r0, 0xFDFF)] [(0xFDFF, 0x41)]
    (s.interruptIn = none ∧ NoByteYet s ∧ 1 < 65536 ∧ readReg s .r0 + BitVec.ofNat 16 1 = 0xFE00 ∧
      ∀ k < 1, stringWord s (readReg s .r0) k ≠ 0x0000) ∧
    readReg (start 0x3001 [(.r0, 0xFE00)] []) .r0 + BitVec.ofNat 16 0 = 0xFE00 :=
  ⟨⟨by decide, .inr ⟨rfl, by decide⟩, by decide, by decide, by decide⟩, by decide⟩

/-- V-TR10 with input pending: "A", the keyboard's word, "C" at 0xFE01, then the polled byte at 0xFE02. -/
theorem witness_StringGoesOnThroughTheKeyboard :
    let s := given (start 0x3001 [(.r0, 0xFDFF)] [(0xFDFF, 0x41), (0xFE01, 0x43)]) [.byte 0x7A]
    s.interruptIn = none ∧ HasByte s 0x7A ∧ 1 + 2 + 1 < 65536 ∧
      readReg s .r0 + BitVec.ofNat 16 1 = 0xFE00 ∧ (∀ k < 1, stringWord s (readReg s .r0) k ≠ 0x0000) ∧
      (∀ k < 2, stringWord (memRead s 0xFE00).2 0xFE01 k ≠ 0x0000) ∧
      stringWord (memRead s 0xFE00).2 0xFE01 2 = 0x0000 :=
  ⟨by decide, rfl, by decide, by decide, by decide, by decide, by decide⟩

/-- `n` words 0x0001 from `a` on. -/
def onesFrom : Nat → Nat → Memory
  | _, 0 => []
  | a, n + 1 => (a, 1) :: onesFrom (a + 1) n

theorem read_onesFrom (a n b : Nat) (h : a ≤ b) (hn : b < a + n) : Memory.read (onesFrom a n) b = 1 := by
  induction n generalizing a with
  | zero => omega
  | succ n ih =>
    rcases eq_or_ne a b with rfl | hab
    · simp [onesFrom, Memory.read]
    · simpa [onesFrom, Memory.read, hab] using ih (a + 1) (by omega) (by omega)

/-- A memory without a zero word, and a host whose input never ends. -/
theorem witness_EndlessStringNeverEnds :
    ∃ s : State, (s.interruptIn = none ∧ HasByte s 0x41 ∧ (0x41 : Byte) ≠ 0x00 ∧ ∀ a, memWord s a ≠ 0x0000) ∧
      Endless .puts 0x4000 { s with pending := some (.puts 0x4000) } ∧
      Endless .putsp 0x4000 { s with pending := some (.putsp 0x4000) } := by
  have hmem : ∀ a : Word, Memory.read (onesFrom 0 65536) a.toNat ≠ 0x0000 := fun a => by
    rw [read_onesFrom 0 65536 a.toNat (Nat.zero_le _) (by have := a.isLt; omega)]
    decide
  have hin : ∀ n, ∃ c : Byte, c ≠ 0x00 ∧
      (InputTail.repeats (.byte 0x41) []).answer n = some (.byte c) := fun n =>
    ⟨0x41, by decide, by simp [InputTail.answer, Nat.mod_one]⟩
  exact ⟨followed (State.resetWith (onesFrom 0 65536)) (.repeats (.byte 0x41) []),
    ⟨rfl, rfl, by decide, hmem⟩, ⟨rfl, rfl, rfl, hmem, hin⟩, ⟨rfl, rfl, rfl, hmem, hin⟩⟩

theorem witness_InPromptsReadsAndEchoes :
    (HasByte (given State.reset [.byte 0x37]) 0x37 ∧
      NoInterruptWithin (given State.reset [.byte 0x37]) (Config.inPrompt.length + 1)) ∧
      NoByteYet State.reset ∧ NoInterruptWithin State.reset Config.inPrompt.length ∧
      NoInterruptWithin (stopping State.reset Config.inPrompt.length) Config.inPrompt.length :=
  ⟨⟨rfl, .of_none rfl _⟩, .inr ⟨rfl, by decide⟩, .of_none rfl _, .of_some rfl (Nat.le_refl _)⟩

theorem witness_HaltEndsTheRunAfterItsNotice :
    NoInterruptWithin State.reset Config.haltNotice.length ∧
      NoInterruptWithin (stopping State.reset Config.haltNotice.length) Config.haltNotice.length :=
  ⟨.of_none rfl _, .of_some rfl (Nat.le_refl _)⟩

/-- Each of the six services from the reset state answers a next state. -/
theorem witness_TrapServicesLinkNothing :
    (∃ t, exec (.trapGetc 0) State.reset = .next t) ∧ (∃ t, exec (.trapOut 0) State.reset = .next t) ∧
      (∃ t, exec (.trapPuts 0) State.reset = .next t) ∧ (∃ t, exec (.trapIn 0) State.reset = .next t) ∧
      (∃ t, exec (.trapPutsp 0) State.reset = .next t) ∧ (∃ t, exec (.trapHalt 0) State.reset = .next t) ∧
      State.reset.interruptIn = none ∧ Instr.trapOut 0 ≠ .trapHalt 0 ∧ Instr.trapOut 0 ≠ .trapGetc 0 ∧
      Instr.trapOut 0 ≠ .trapIn 0 :=
  ⟨⟨_, rfl⟩, ⟨_, rfl⟩, ⟨_, rfl⟩, ⟨_, rfl⟩, ⟨_, rfl⟩, ⟨_, rfl⟩, rfl, by decide, by decide, by decide⟩

/-- The vectors next to the services' own. -/
theorem witness_UnknownTrapsEndTheRun :
    ((0x1F : BitVec 8).toNat < 0x20 ∨ 0x25 < (0x1F : BitVec 8).toNat) ∧
      ((0x26 : BitVec 8).toNat < 0x20 ∨ 0x25 < (0x26 : BitVec 8).toNat) := by decide

theorem witness_StepRunsTheDecodedInstruction :
    (start 0x3000 [] [(0x3000, 0x1042)]).run = .running ∧
      (start 0x3000 [] [(0x3000, 0x1042)]).pending = none ∧
      (start 0x3000 [] [(0x3000, 0x1042)]).interruptIn = none ∧
      (Instr.addReg .r0 .r1 .r2 0).wellFormed = true ∧
      (start 0x3000 [] [(0x3000, 0x1042)]).pc ≠ 0xFE00 ∧
      memWord (start 0x3000 [] [(0x3000, 0x1042)]) (start 0x3000 [] [(0x3000, 0x1042)]).pc =
        encode (.addReg .r0 .r1 .r2 0) := by decide

theorem witness_StepCountsStopPointsAndGoesOn :
    let held : State := { stopping State.reset 1 with pending := some .getc }
    ((stopping State.reset 1).run = .running ∧ (stopping State.reset 1).interruptIn = some (0 + 1) ∧
      (stopping State.reset 1).pending = none) ∧
    (held.run = .running ∧ held.interruptIn = some (0 + 1) ∧ held.pending = some .getc) ∧
    ({ held with interruptIn := none } : State).interruptIn = none ∧
      ({ held with interruptIn := none, pending := some (.puts 0x4000) } : State).pending =
        some (.puts 0x4000) := by decide

theorem witness_HaltedIsTerminal :
    ({ State.reset with run := .halted .unknownTrap } : State).run = .halted .unknownTrap := rfl

theorem witness_FetchAtKeyboardStatus :
    ((start 0xFE00 [] []).run = .running ∧ (start 0xFE00 [] []).pending = none ∧
      (start 0xFE00 [] []).interruptIn = none ∧ (start 0xFE00 [] []).pc = 0xFE00) ∧
      HasByte (given (start 0xFE00 [] []) [.byte 0x71]) 0x71 ∧ NoByteYet (start 0xFE00 [] []) :=
  ⟨by decide, rfl, .inr ⟨rfl, by decide⟩⟩

theorem witness_HeldReadsGoOnWithAByte :
    let held (p : Pending) (input : List InputEvent) : State := { given State.reset input with pending := some p }
    (∀ p input, (held p input).run = .running ∧ (held p input).interruptIn = none ∧
      (held p input).pending = some p) ∧
    (∀ p, HasByte (held p [.byte 0x00]) 0x00 ∧ HasByte (held p [.byte 0xFF]) 0xFF) ∧
    ∀ p, NoByteYet (held p []) ∧ NoByteYet (held p [.notYet]) :=
  ⟨fun _ _ => ⟨rfl, rfl, rfl⟩, fun _ => ⟨rfl, rfl⟩, fun _ => ⟨.inr ⟨rfl, fun h => by cases h⟩, .inl rfl⟩⟩

/-- Between two steps, and in a hold. -/
theorem witness_InterruptEndsTheRunBeforeTheNextFetch :
    ((stopping State.reset 0).run = .running ∧ (stopping State.reset 0).interruptIn = some 0) ∧
      ({ stopping State.reset 0 with pending := some .getc } : State).run = .running ∧
      ({ stopping State.reset 0 with pending := some .getc } : State).interruptIn = some 0 := by decide

/-- The string "AB", cut after its first and after its last byte; a text of two bytes; the echo of IN. -/
theorem witness_InterruptCutsOutputAfterAByte :
    let s := start 0x3001 [(.r0, 0x4000)] [(0x4000, 0x41), (0x4001, 0x42)]
    (StringAt (stopping s 0) (readReg (stopping s 0) .r0) 2 ∧ (stopping s 0).interruptIn = some 0 ∧
      0 < (StringService.puts.output (stopping s 0) (readReg (stopping s 0) .r0) 2).length) ∧
    (StringAt (stopping s 1) (readReg (stopping s 1) .r0) 2 ∧ (stopping s 1).interruptIn = some 1 ∧
      1 < (StringService.putsp.output (stopping s 1) (readReg (stopping s 1) .r0) 2).length) ∧
    ((stopping s 1).interruptIn = some 1 ∧ 1 < [(0x41 : Byte), 0x42].length) ∧
    HasByte (given (stopping s Config.inPrompt.length) [.byte 0x37]) 0x37 ∧
      (given (stopping s Config.inPrompt.length) [.byte 0x37]).interruptIn = some Config.inPrompt.length :=
  ⟨⟨(by unfold StringAt; decide), rfl, by decide⟩, ⟨(by unfold StringAt; decide), rfl, by decide⟩,
    ⟨rfl, by decide⟩, rfl, rfl⟩

/-- A step from the reset state, which meets the invariant. -/
theorem witness_EveryStepKeepsTheInvariant : State.reset.Inv ∧ ∃ t, step State.reset = .next t := by
  refine ⟨?_, _, rfl⟩
  unfold State.Inv
  decide

/-- The invariant also holds where a fault has ended the run. -/
theorem witness_invariant_after_a_fault :
    ({ State.reset with run := .halted .illegalOpcode, fault := some ⟨.illegalOpcode, 0x8000, 0x3000⟩ } :
      State).Inv := by
  unfold State.Inv
  decide

theorem witness_InvariantHoldsAtReset :
    Memory.wf [(0x3000, 0x1234)] = true ∧
      (boot [(0x3000, 0x1234)] [[0x40, 0x00]]).toOption = some (State.resetWith [(0x3000, 0x1234)]) := by
  decide

theorem witness_OutputGrowsAndInputIsTakenInOrder : ∃ t, step State.reset = .next t := ⟨_, rfl⟩

/-- A DR, R7 by JSR, R7 by JSRR, R0 by GETC. -/
theorem witness_OnlyNamedRegistersAreWritten :
    (∃ t, exec (.addImm .r3 .r0 1) State.reset = .next t ∧ readReg t .r3 ≠ readReg State.reset .r3) ∧
      (∃ t, exec (.jsr 0) State.reset = .next t ∧ readReg t .r7 ≠ readReg State.reset .r7) ∧
      (∃ t, exec (.jsrr .r7 0 0) State.reset = .next t ∧ readReg t .r7 ≠ readReg State.reset .r7) ∧
      ∃ t, exec (.trapGetc 0) (given State.reset [.byte 0x41]) = .next t ∧
        readReg t .r0 ≠ readReg (given State.reset [.byte 0x41]) .r0 :=
  ⟨⟨_, rfl, by decide⟩, ⟨_, rfl, by decide⟩, ⟨_, rfl, by decide⟩, _, rfl, by decide⟩

/-- A poll by a load and by a string, a store, a store through a base, an indirect store. -/
theorem witness_OnlyStoresAndPollsChangeMemory :
    (∃ t, exec (.ldr .r0 .r1 0) (given (start 0x3001 [(.r1, 0xFE00)] []) [.byte 0x41]) = .next t ∧
      memWord t 0xFE02 ≠ memWord (given (start 0x3001 [(.r1, 0xFE00)] []) [.byte 0x41]) 0xFE02) ∧
    (∃ t, exec (.trapPuts 0) (start 0x3001 [(.r0, 0xFE00)] [(0xFE00, 5)]) = .next t ∧
      memWord t 0xFE00 ≠ memWord (start 0x3001 [(.r0, 0xFE00)] [(0xFE00, 5)]) 0xFE00) ∧
    (∃ t, exec (.st .r1 0) (start 0x3001 [(.r1, 5)] []) = .next t ∧
      memWord t 0x3001 ≠ memWord (start 0x3001 [(.r1, 5)] []) 0x3001) ∧
    (∃ t, exec (.str .r1 .r1 0) (start 0x3001 [(.r1, 5)] []) = .next t ∧
      memWord t 0x0005 ≠ memWord (start 0x3001 [(.r1, 5)] []) 0x0005) ∧
    ∃ t, exec (.sti .r1 0) (start 0x3001 [(.r1, 5)] []) = .next t ∧
      memWord t 0x0000 ≠ memWord (start 0x3001 [(.r1, 5)] []) 0x0000 :=
  ⟨⟨_, rfl, by decide⟩, ⟨_, rfl, by decide⟩, ⟨_, rfl, by decide⟩, ⟨_, rfl, by decide⟩, _, rfl, by decide⟩

end Sys2Proof.Tests
end

section
/-! PROOFS. The statements of 00_scope.md: extension (R15), address sums (R14), plain stores (R17). -/

namespace Sys2Proof.Machine

/-! ### Sign extension -/

/-- Sign extension copies the field and repeats its top bit above it (00_scope.md R15). -/
theorem getLsbD_sext16 {n : Nat} (f : BitVec n) {i : Nat} (hi : i < 16) :
    (sext16 f).getLsbD i = if i < n then f.getLsbD i else f.msb := by
  unfold sext16
  by_cases hin : i < n
  · cases f.msb <;> simp [hi, hin]
  · have habove : f.getLsbD i = false := BitVec.getLsbD_of_ge f i (Nat.le_of_not_lt hin)
    have hsub : i - n < 16 := by omega
    have hone : (0xFFFF#16)[i - n] = true := BitVec.getElem_allOnes (v := 16) (i - n) hsub
    cases f.msb <;> simp [hi, hin, habove, hone]

/-- The model's extension is the library's, for which two's-complement values are known. -/
theorem sext16_eq_signExtend {n : Nat} (f : BitVec n) : sext16 f = f.signExtend 16 := by
  apply BitVec.eq_of_getLsbD_eq
  intro i hi
  rw [getLsbD_sext16 f hi, BitVec.getLsbD_signExtend, decide_eq_true hi, Bool.true_and]

/-- Extension keeps the two's-complement value (00_scope.md R15). -/
theorem toInt_sext16 {n : Nat} (f : BitVec n) (hn : n ≤ 16) : (sext16 f).toInt = f.toInt := by
  rw [sext16_eq_signExtend, BitVec.toInt_signExtend_of_le hn]

/-- Zero extension copies the byte below bit 8 and is zero above (00_scope.md R15). -/
theorem getLsbD_zext16 (c : Byte) (i : Nat) :
    (zext16 c).getLsbD i = if i < 8 then c.getLsbD i else false := by
  unfold zext16
  rw [BitVec.getLsbD_setWidth]
  by_cases hi : i < 8
  · simp [hi, show i < 16 by omega]
  · simp [hi, BitVec.getLsbD_of_ge c i (Nat.le_of_not_lt hi)]

/-- Settles O6: bit by bit, the top bit of a nonempty field being its bit `n - 1`. -/
theorem extensionFollowsTheSignBit : Obligations.ExtensionFollowsTheSignBit := by
  unfold Obligations.ExtensionFollowsTheSignBit
  refine ⟨fun n hn f i hi => ?_, getLsbD_zext16⟩
  rw [getLsbD_sext16 f hi, BitVec.msb_eq_getLsbD_last]

/-! ### Effective addresses -/

/-- The word sum is the signed sum modulo 65536 (00_scope.md R14). -/
theorem isSum_add (base offset : Word) : IsSum (base + offset) base offset.toInt := by
  unfold IsSum
  rw [BitVec.toNat_add, BitVec.toInt_eq_toNat_cond]
  split <;> omega

/-- A sum with an extended field is the signed sum with the field (00_scope.md R14, R15). -/
theorem isSum_add_sext16 {n : Nat} (base : Word) (f : BitVec n) (hn : n ≤ 16) :
    IsSum (base + sext16 f) base f.toInt := by
  rw [← toInt_sext16 f hn]
  exact isSum_add base (sext16 f)

/-- Settles O7: each effective address is a sum with an extended field. -/
theorem effectiveAddressesWrap : Obligations.EffectiveAddressesWrap := by
  unfold Obligations.EffectiveAddressesWrap
  intro s base o6 o9 o11
  exact ⟨isSum_add_sext16 s.pc o9 (by decide), isSum_add_sext16 s.pc o11 (by decide),
    isSum_add_sext16 (readReg s base) o6 (by decide)⟩

/-! ### Stores and polls -/

/-- The frame of a store: its own word apart, everything is as before (20_memory.md R90). -/
theorem memWrite_onlyWordAt (s : State) (a v : Word) : OnlyWordAt s (memWrite s a v) a :=
  ⟨fun _ => rfl, rfl, rfl, fun b hb => by rw [memWord_memWrite, if_neg hb], ⟨rfl, rfl⟩, ⟨rfl, rfl⟩,
    ⟨rfl, rfl, rfl⟩⟩

/-- A request for a byte leaves every word of memory (92_eei_decisions.md D10). -/
theorem memWord_hostTryRead (s : State) (b : Word) : memWord (hostTryRead s).2 b = memWord s b := by
  rw [memWord, hostTryRead_mem, memWord]

/-- Memory after a poll that gets the word `w` (20_memory.md R89). -/
theorem memWord_intercept_of_some {s : State} {w : Word} (h : (hostTryRead s).1 = some w) (b : Word) :
    memWord (intercept s Config.kbsrAddr) b =
      if b = Config.kbdrAddr then w
      else if b = Config.kbsrAddr then Config.kbReady else memWord s b := by
  have hpoll := pollKeyboard_some (s := s) (t := (hostTryRead s).2) (Prod.ext h rfl)
  rw [intercept, if_pos rfl, hpoll]
  simp only [memWord_memWrite, memWord_hostTryRead]

/-- Memory after a poll that gets nothing (20_memory.md R89). -/
theorem memWord_intercept_of_none {s : State} (h : (hostTryRead s).1 = none) (b : Word) :
    memWord (intercept s Config.kbsrAddr) b =
      if b = Config.kbsrAddr then 0x0000 else memWord s b := by
  have hpoll := pollKeyboard_none (s := s) (t := (hostTryRead s).2) (Prod.ext h rfl)
  rw [intercept, if_pos rfl, hpoll]
  simp only [memWord_memWrite, memWord_hostTryRead]

/-- After a poll KBSR holds the ready bit or zero, whatever it held before (20_memory.md R89). -/
theorem memWord_intercept_kbsr (s : State) :
    memWord (intercept s Config.kbsrAddr) Config.kbsrAddr = 0x8000 ∨
      memWord (intercept s Config.kbsrAddr) Config.kbsrAddr = 0x0000 := by
  cases h : (hostTryRead s).1 with
  | none => exact .inr (by rw [memWord_intercept_of_none h, if_pos rfl])
  | some w =>
    rw [memWord_intercept_of_some h, if_neg (by decide), if_pos rfl]
    exact .inl rfl

/-- A store takes none of the host's answers. -/
@[simp] theorem answer_memWrite (s : State) (a v : Word) (n : Nat) : answer (memWrite s a v) n = answer s n :=
  answer_congr rfl rfl n

/-- Settles O32: a store keeps the frame and the host's answers, so what a read after it leaves of the word is
what the read leaves of any word: all of it away from KBSR_ADDR, and at KBSR_ADDR what the poll does. -/
theorem writesArePlainStores : Obligations.WritesArePlainStores := by
  unfold Obligations.WritesArePlainStores
  intro s a v
  refine ⟨by simp, memWrite_onlyWordAt s a v, fun b hb => ?_, memWord_intercept_kbsr _, fun hnone => ?_,
    fun c hbyte => ?_⟩
  · rw [memRead_snd, intercept_of_ne hb, memWord_memWrite, if_pos rfl]
  · have hnone' : NoByteYet (memWrite s 0xFE02 v) := by simpa [NoByteYet] using hnone
    have hread := congrArg Prod.fst (hostTryRead_of_noByteYet hnone')
    calc memWord (intercept (memWrite s 0xFE02 v) Config.kbsrAddr) 0xFE02
      _ = memWord (memWrite s 0xFE02 v) 0xFE02 := by
        rw [memWord_intercept_of_none hread, if_neg (by decide)]
      _ = v := by simp
  · have hbyte' : HasByte (memWrite s 0xFE02 v) c := by simpa [HasByte] using hbyte
    have hread := congrArg Prod.fst (hostTryRead_of_hasByte hbyte')
    exact (memWord_intercept_of_some hread _).trans (if_pos rfl)

end Sys2Proof.Machine
end

section
/-! PROOFS. The statements of 10_state.md: reset (R47, R53, R57), the flags (R50, R51), the registers an
instruction writes (R41), the instruction cycle (R56, R60) and the machine's invariant (R56, R58). -/

namespace Sys2Proof

/-! ### The decoder on an instruction's own word -/

/-- A vector that is none of the six services is unknown to the trap dispatcher (43_trap.md R291). -/
theorem decodeTrap_of_not_service (unread : BitVec 4) {vector : BitVec 8}
    (h : isServiceVector vector = false) : decodeTrap unread vector = .trapUnknown unread vector := by
  have hout : ¬(0x20 ≤ vector.toNat ∧ vector.toNat ≤ 0x25) := of_decide_eq_false h
  unfold decodeTrap
  split
  case h_7 => rfl
  all_goals omega

/-- The decoder reads every field of a well-formed instruction back from its word (30_encoding.md R132). -/
theorem decode_encode {i : Instr} (h : i.wellFormed = true) : decode (encode i) = i := by
  cases i with
  | br | jsrr | jsr | jmp => simp [decode, opcodeOf, fieldSr1]
  | addReg | addImm | andReg | andImm | ldr | str | notReg =>
    simp [decode, encode, opcodeOf, fieldDr, fieldSr1, fieldSr2]
  | ld | st | ldi | sti | lea | rti | res => simp [decode, encode, opcodeOf, fieldDr]
  | trapGetc | trapOut | trapPuts | trapIn | trapPutsp | trapHalt =>
    simp [decode, encode, opcodeOf, decodeTrap]
  | trapUnknown unread vector =>
    have hvector : isServiceVector vector = false := by simpa [Instr.wellFormed] using h
    simp [decode, encode, opcodeOf, decodeTrap_of_not_service unread hvector]

/-- The trap dispatcher gives a well-formed instruction for every vector. -/
theorem wellFormed_decodeTrap (unread : BitVec 4) (vector : BitVec 8) :
    (decodeTrap unread vector).wellFormed = true := by
  unfold decodeTrap
  split
  case h_7 h20 h21 h22 h23 h24 h25 =>
    simp only [imp_false] at h20 h21 h22 h23 h24 h25
    have hout : ¬(0x20 ≤ vector.toNat ∧ vector.toNat ≤ 0x25) := by omega
    simp [Instr.wellFormed, isServiceVector, hout]
  all_goals rfl

/-- The decoder gives a well-formed instruction for every word (30_encoding.md R134). -/
theorem wellFormed_decode (w : Word) : (decode w).wellFormed = true := by
  unfold decode
  split
  case h_16 => exact wellFormed_decodeTrap _ _
  case h_2 | h_5 | h_6 => split <;> rfl
  all_goals rfl

/-! ### What an instruction names -/

/-- The register an instruction writes, if it writes one: DR, R7 for a call, R0 for GETC and IN
(10_state.md R41). -/
def Instr.destination : Instr → Option Reg
  | .addReg dr _ _ _ | .addImm dr _ _ | .andReg dr _ _ _ | .andImm dr _ _ | .notReg dr _ _ => some dr
  | .ld dr _ | .ldi dr _ | .ldr dr _ _ | .lea dr _ => some dr
  | .jsr _ | .jsrr _ _ _ => some .r7
  | .trapGetc _ | .trapIn _ => some .r0
  | _ => none

/-- Whether an instruction sets cond (10_state.md R51): those that write a register, but the calls. -/
def Instr.setsCond : Instr → Bool
  | .jsr _ | .jsrr _ _ _ => false
  | i => i.destination.isSome

end Sys2Proof

namespace Sys2Proof.Machine

/-! ### Reset and the image load -/

/-- A boot that succeeds ends in the reset state of the memory it loaded (70_reset_and_hazards.md R400). -/
theorem boot_eq_resetWith {memInit : Memory} {files : List (List Byte)} {s : State}
    (h : boot memInit files = .ok s) :
    ∃ m, loadImages memInit files = .ok m ∧ s = State.resetWith m := by
  unfold boot at h
  split at h
  · cases h
  · split at h
    · cases h
    · next m hload => cases h; exact ⟨m, hload, rfl⟩

/-- Settles O8: reset writes pc, cond and run whatever the memory, and a boot ends in reset. -/
theorem resetSetsPcCondAndRun : Obligations.ResetSetsPcCondAndRun := by
  unfold Obligations.ResetSetsPcCondAndRun
  refine ⟨⟨rfl, rfl, rfl⟩, fun memInit files s h => ?_⟩
  obtain ⟨m, -, rfl⟩ := boot_eq_resetWith h
  exact ⟨rfl, rfl, rfl⟩

/-! ### The flags -/

/-- The condition of zero. -/
theorem condOf_of_zero {v : Word} (h : v = 0x0000) : condOf v = .z := if_pos h

/-- The condition of a nonzero value with bit 15 set. -/
theorem condOf_of_negative {v : Word} (h : v ≠ 0x0000) (hbit : v.getLsbD 15 = true) : condOf v = .n := by
  unfold condOf
  rw [if_neg h, if_pos hbit]

/-- The condition of a nonzero value with bit 15 clear. -/
theorem condOf_of_positive {v : Word} (h : v ≠ 0x0000) (hbit : v.getLsbD 15 = false) : condOf v = .p := by
  unfold condOf
  rw [if_neg h, if_neg (Bool.eq_false_iff.1 hbit)]

/-- Bit 15 is the two's-complement sign (00_scope.md R15). -/
theorem getLsbD_15_iff_toInt_neg (v : Word) : v.getLsbD 15 = true ↔ v.toInt < 0 := by
  have hmsb := BitVec.msb_eq_toInt (x := v)
  rw [BitVec.msb_eq_getLsbD_last] at hmsb
  rw [show v.getLsbD 15 = decide (v.toInt < 0) from hmsb, decide_eq_true_iff]

/-- The condition of a value reads it as two's complement (10_state.md R50; 40_operate.md R167). -/
theorem condReads_condOf (v : Word) : CondReads (condOf v) v := by
  unfold CondReads
  by_cases hzero : v = 0x0000
  · subst hzero
    decide
  · have hne : v.toInt ≠ 0 := fun h => hzero (BitVec.toInt_inj.1 h)
    cases hbit : v.getLsbD 15 with
    | true =>
      have hneg : v.toInt < 0 := (getLsbD_15_iff_toInt_neg v).1 hbit
      simp only [condOf_of_negative hzero hbit, reduceCtorEq, false_iff, true_iff]
      omega
    | false =>
      have hneg : ¬v.toInt < 0 := fun h => Bool.eq_false_iff.1 hbit ((getLsbD_15_iff_toInt_neg v).2 h)
      simp only [condOf_of_positive hzero hbit, reduceCtorEq, false_iff, true_iff]
      omega

/-- Settles O13: setcc writes the condition of the value read back, and nothing else. -/
theorem setccFollowsTheStoredValue : Obligations.SetccFollowsTheStoredValue := by
  unfold Obligations.SetccFollowsTheStoredValue
  intro s r
  exact ⟨condReads_condOf (readReg s r), condOf_of_zero, condOf_of_negative, condOf_of_positive,
    fun _ => rfl, rfl, fun _ => rfl, ⟨rfl, rfl⟩, ⟨rfl, rfl⟩, ⟨rfl, rfl, rfl⟩⟩

/-! ### Which registers and when cond are written -/

/-- A flag-setting write leaves every other register. -/
theorem readReg_writeAndSetcc_of_ne {q r : Reg} (h : q ≠ r) (s : State) (v : Word) :
    readReg (writeAndSetcc s r v) q = readReg s q := by
  simp [writeAndSetcc, h]

/-- A load leaves every register but its DR. -/
theorem readReg_loadInto_of_ne {q dr : Reg} (h : q ≠ dr) (ea : Word) (s : State) :
    readReg (loadInto dr ea s) q = readReg s q := by
  rw [loadInto, readReg_writeAndSetcc_of_ne h, memRead_snd, intercept_readReg]

/-- A call's link leaves every register but R7. -/
theorem readReg_link_of_ne {q : Reg} (h : q ≠ .r7) (s : State) : readReg (link s) q = readReg s q := by
  simp [link, h]

/-- An instruction writes no register but its destination (10_state.md R41). -/
theorem exec_readReg_of_ne_destination {i : Instr} {s t : State} {q : Reg} (h : exec i s = .next t)
    (hq : i.destination ≠ some q) : readReg t q = readReg s q := by
  have hne : ∀ {r : Reg}, i.destination = some r → q ≠ r := fun hr hqr => hq (hqr ▸ hr)
  cases i with
  | br nzp offset => cases h; split <;> rfl
  | addReg | addImm | andReg | andImm | notReg | lea =>
    cases h; exact readReg_writeAndSetcc_of_ne (hne rfl) s _
  | ld | ldr => cases h; exact readReg_loadInto_of_ne (hne rfl) _ s
  | ldi dr offset =>
    cases h
    exact (readReg_loadInto_of_ne (hne rfl) _ _).trans (intercept_readReg s _ q)
  | jsr | jsrr => cases h; exact readReg_link_of_ne (hne rfl) s
  | jmp | st | str | rti | res | trapOut | trapUnknown => cases h; rfl
  | sti => cases h; exact intercept_readReg s _ q
  | trapGetc => cases h; exact (getcRead_keeps s).regs q (hne rfl)
  | trapIn => cases h; exact (hostWriteText_keeps s _ inRead_keeps).regs q (hne rfl)
  | trapPuts => cases h; exact congrArg (·.get q) (putsFrom_regs_cond _ _ s).1
  | trapPutsp => cases h; exact congrArg (·.get q) (putspFrom_regs_cond _ _ s).1
  | trapHalt => cases h; exact congrArg (·.get q) (haltText_regs_cond s _).1

/-- An instruction that sets no flags leaves cond (10_state.md R51). -/
theorem exec_cond_of_not_setsCond {i : Instr} {s t : State} (h : exec i s = .next t)
    (hi : i.setsCond = false) : t.cond = s.cond := by
  cases i with
  | br nzp offset => cases h; split <;> rfl
  | jmp | jsr | jsrr | st | str | rti | res | trapOut | trapUnknown => cases h; rfl
  | sti => cases h; exact intercept_cond s _
  | trapPuts => cases h; exact (putsFrom_regs_cond _ _ s).2
  | trapPutsp => cases h; exact (putspFrom_regs_cond _ _ s).2
  | trapHalt => cases h; exact (haltText_regs_cond s _).2
  | addReg | addImm | andReg | andImm | notReg | lea | ld | ldi | ldr | trapGetc | trapIn => cases hi

/-- Settles O14: an instruction that changes cond sets flags, and those that do are the listed ones. -/
theorem onlyFlagSettersChangeCond : Obligations.OnlyFlagSettersChangeCond := by
  unfold Obligations.OnlyFlagSettersChangeCond
  intro i s t h hcond
  have hsets : i.setsCond ≠ false := fun hi => hcond (exec_cond_of_not_setsCond h hi)
  cases i with
  | br | jmp | jsr | jsrr | st | str | sti | rti | res | trapOut | trapPuts | trapPutsp | trapHalt
  | trapUnknown => exact absurd rfl hsets
  | addReg | addImm | andReg | andImm | notReg | lea | ld | ldi | ldr | trapGetc | trapIn => simp

/-- Settles O59: a register that an instruction changes is its destination. -/
theorem onlyNamedRegistersAreWritten : Obligations.OnlyNamedRegistersAreWritten := by
  unfold Obligations.OnlyNamedRegistersAreWritten
  intro i s t q h hchanged
  have hdest : i.destination = some q := by_contra fun hq => hchanged (exec_readReg_of_ne_destination h hq)
  cases i with
  | br | jmp | st | str | sti | rti | res | trapOut | trapPuts | trapPutsp | trapHalt | trapUnknown =>
    cases hdest
  | addReg | addImm | andReg | andImm | notReg | lea | ld | ldi | ldr | jsr | jsrr | trapGetc | trapIn =>
    cases hdest; simp

/-! ### The instruction cycle -/

/-- A halted machine takes no step (10_state.md R56, log 13). -/
theorem step_of_halted {s : State} {reason : HaltReason} (hrun : s.run = .halted reason) :
    step s = .next s := by
  simp only [step, hrun]

/-- The interrupt at the step's own stop point (60_exceptions.md R357). -/
theorem step_of_interruptHere {s : State} (hrun : s.run = .running) (hint : interruptHere s = true) :
    step s = .next (takeInterrupt s) := by
  simp only [step, hrun, hint, if_true]

/-- A service in progress goes on (log 7, 9). -/
theorem step_of_pending {s : State} {service : Pending} (hrun : s.run = .running)
    (hint : interruptHere s = false) (hpending : s.pending = some service) :
    step s = .next (resume service (passStopPoint s)) := by
  simp only [step, hrun, hint, hpending, Bool.false_eq_true, if_false]

/-- Fetch, decode, execute (10_state.md R60). -/
theorem step_of_fetch {s : State} (hrun : s.run = .running) (hint : interruptHere s = false)
    (hpending : s.pending = none) :
    step s = exec (decode (fetch (passStopPoint s)).1) (fetch (passStopPoint s)).2 := by
  simp only [step, hrun, hint, hpending, Bool.false_eq_true, if_false]

/-- A fetch away from KBSR_ADDR gives the word at pc and moves pc on (10_state.md R60; 20_memory.md R86). -/
theorem fetch_of_ne {s : State} (h : s.pc ≠ Config.kbsrAddr) :
    fetch s = (memWord s s.pc, setPc s (s.pc + 1)) := by
  simp [fetch, h]

/-- Settles O48: with no interrupt to come the stop point changes nothing, and the word of `i` decodes to `i`. -/
theorem stepRunsTheDecodedInstruction : Obligations.StepRunsTheDecodedInstruction := by
  unfold Obligations.StepRunsTheDecodedInstruction
  intro s hrun hpending hint
  have hstep : step s = exec (decode (fetch s).1) (fetch s).2 := by
    rw [step_of_fetch hrun (interruptHere_of_none hint) hpending, passStopPoint_of_none hint]
  refine ⟨hstep, fun i hi hpc hword => ?_⟩
  rw [hstep, fetch_of_ne hpc, hword, decode_encode hi]
  rfl

/-- Settles O50: the equation of a halted step. -/
theorem haltedIsTerminal : Obligations.HaltedIsTerminal := by
  unfold Obligations.HaltedIsTerminal
  intro s reason hrun
  exact step_of_halted hrun

/-! ### The invariant, by the run state -/

/-- A fault record belongs to no running machine (10_state.md R58). -/
theorem recordFits_running_iff (fault : Option FaultRecord) :
    recordFits .running fault = true ↔ fault = none := by
  cases fault <;> simp [recordFits]

/-- The invariant of a running machine: canonical memory and no fault record. -/
theorem inv_iff_of_running {s : State} (hrun : s.run = .running) :
    s.Inv ↔ Memory.wf s.mem = true ∧ s.fault = none := by
  simp [State.Inv, hrun, recordFits_running_iff]

/-- The invariant of a halted machine: nothing is in progress. -/
theorem inv_iff_of_halted {s : State} {reason : HaltReason} (hrun : s.run = .halted reason) :
    s.Inv ↔ Memory.wf s.mem = true ∧ recordFits (.halted reason) s.fault = true ∧ s.pending = none := by
  simp [State.Inv, hrun]

/-! ### The operations keep the invariant -/

/-- The invariant speaks of memory, run, the fault record and the service in progress only. -/
theorem State.Inv.of_same {s t : State} (hs : s.Inv) (hmem : t.mem = s.mem) (hrun : t.run = s.run)
    (hfault : t.fault = s.fault) (hpending : t.pending = s.pending) : t.Inv := by
  unfold State.Inv
  rw [hmem, hrun, hfault, hpending]
  exact hs

/-- A store keeps it. -/
theorem State.Inv.memWrite {s : State} (hs : s.Inv) (a v : Word) : (memWrite s a v).Inv :=
  ⟨wf_memWrite a v hs.1, hs.2⟩

/-- A read keeps it. -/
theorem State.Inv.intercept {s : State} (hs : s.Inv) (a : Word) : (intercept s a).Inv := by
  obtain ⟨hmem, hrest⟩ := hs
  exact ⟨wf_intercept a hmem, by simpa using hrest⟩

/-- A load keeps it: the read, then a register and cond. -/
theorem State.Inv.loadInto {s : State} (hs : s.Inv) (dr : Reg) (ea : Word) : (loadInto dr ea s).Inv :=
  (hs.intercept ea).of_same rfl rfl rfl rfl

/-- The external interrupt keeps the invariant of a running machine: it records no fault and drops the service
in progress (60_exceptions.md R356). -/
theorem State.Inv.takeInterrupt {s : State} (hs : s.Inv) (hrun : s.run = .running) :
    (takeInterrupt s).Inv := by
  obtain ⟨hmem, hfault⟩ := (inv_iff_of_running hrun).1 hs
  exact (inv_iff_of_halted rfl).2 ⟨hmem, by simp [hfault, recordFits], rfl⟩

/-- The end of HALT keeps the invariant of a running machine with nothing in progress. -/
theorem State.Inv.haltRun {s : State} (hs : s.Inv) (hrun : s.run = .running) (hpending : s.pending = none) :
    (haltRun s .halt).Inv := by
  obtain ⟨hmem, hfault⟩ := (inv_iff_of_running hrun).1 hs
  exact (inv_iff_of_halted rfl).2 ⟨hmem, by simp [hfault, recordFits], hpending⟩

/-- Fault entry keeps it where the recorded word raises the cause (60_exceptions.md R351). -/
theorem State.Inv.raiseFault {s : State} {cause : FaultCause} {word : Word} (hs : s.Inv)
    (hpending : s.pending = none) (hword : raisesFault cause word = true) :
    (raiseFault s cause word).Inv := by
  refine (inv_iff_of_halted rfl).2 ⟨hs.1, ?_, hpending⟩
  cases cause <;> simp [recordFits, FaultCause.reason, hword]

/-- A trap service keeps the invariant of a running machine: it goes on running, or the interrupt has come. -/
theorem ServiceKeeps.inv {s t : State} (h : ServiceKeeps s t) (hs : s.Inv) (hrun : s.run = .running) :
    t.Inv := by
  obtain ⟨hmem, hfault⟩ := (inv_iff_of_running hrun).1 hs
  have hfault' : t.fault = none := h.fault.trans hfault
  rcases h.run with ⟨hsame, -⟩ | ⟨-, hhalted, hnone⟩
  · exact (inv_iff_of_running (hsame.trans hrun)).2 ⟨h.mem hmem, hfault'⟩
  · exact (inv_iff_of_halted hhalted).2 ⟨h.mem hmem, by simp [hfault', recordFits], hnone⟩

/-! ### Texts and the faulting words -/

/-- How a parameter text ends: in the interrupt, or in the rest of the service, with output and the coming
interrupt changed (43_trap.md R286, R290). -/
theorem hostWriteText_cases (s : State) (text : List Byte) (rest : State → State) :
    (∃ out, hostWriteText s text rest = takeInterrupt { s with output := out }) ∨
      ∃ out int, hostWriteText s text rest = rest { s with output := out, interruptIn := int } := by
  unfold hostWriteText
  split
  · exact .inr ⟨_, s.interruptIn, rfl⟩
  · split
    · exact .inl ⟨_, rfl⟩
    · exact .inr ⟨_, _, rfl⟩

/-- HALT keeps the invariant of a running machine with nothing in progress (43_trap.md R290). -/
theorem State.Inv.haltText {s : State} (hs : s.Inv) (hrun : s.run = .running) (hpending : s.pending = none)
    (text : List Byte) : (hostWriteText s text fun t => Machine.haltRun (hostFlush t) .halt).Inv := by
  rcases hostWriteText_cases s text fun t => Machine.haltRun (hostFlush t) .halt with
    ⟨out, h⟩ | ⟨out, int, h⟩
  · rw [h]
    exact (hs.of_same rfl rfl rfl rfl : State.Inv { s with output := out }).takeInterrupt hrun
  · rw [h]
    exact (hs.of_same rfl rfl rfl rfl : State.Inv (hostFlush { s with output := out, interruptIn := int })).haltRun
      hrun hpending

/-- RTI's word raises IllegalOpcode (44_illegal.md R331). -/
theorem raisesFault_rti (unread : BitVec 12) : raisesFault .illegalOpcode (encode (.rti unread)) = true := by
  unfold raisesFault
  rw [decode_encode rfl]

/-- RES's word raises IllegalOpcode (44_illegal.md R330). -/
theorem raisesFault_res (unread : BitVec 12) : raisesFault .illegalOpcode (encode (.res unread)) = true := by
  unfold raisesFault
  rw [decode_encode rfl]

/-- The word of an unknown vector raises UnknownTrap (43_trap.md R291). -/
theorem raisesFault_trapUnknown {unread : BitVec 4} {vector : BitVec 8}
    (h : (Instr.trapUnknown unread vector).wellFormed = true) :
    raisesFault .unknownTrap (encode (.trapUnknown unread vector)) = true := by
  unfold raisesFault
  rw [decode_encode h]

/-! ### Every step keeps the invariant -/

/-- A well-formed instruction keeps the invariant of a running machine with nothing in progress. -/
theorem exec_keeps_inv {i : Instr} {s t : State} (hi : i.wellFormed = true) (hs : s.Inv)
    (hrun : s.run = .running) (hpending : s.pending = none) (h : exec i s = .next t) : t.Inv := by
  cases i with
  | br nzp offset => cases h; split <;> exact hs.of_same rfl rfl rfl rfl
  | jmp | jsr | jsrr | addReg | addImm | andReg | andImm | notReg | lea | trapOut =>
    cases h; exact hs.of_same rfl rfl rfl rfl
  | ld | ldr => cases h; exact hs.loadInto _ _
  | ldi => cases h; exact (hs.intercept _).loadInto _ _
  | st | str => cases h; exact hs.memWrite _ _
  | sti => cases h; exact (hs.intercept _).memWrite _ _
  | rti unread => cases h; exact hs.raiseFault hpending (raisesFault_rti unread)
  | res unread => cases h; exact hs.raiseFault hpending (raisesFault_res unread)
  | trapUnknown => cases h; exact hs.raiseFault hpending (raisesFault_trapUnknown hi)
  | trapGetc => cases h; exact (getcRead_keeps s).inv hs hrun
  | trapPuts => cases h; exact (putsFrom_keeps _ _ s).inv hs hrun
  | trapPutsp => cases h; exact (putspFrom_keeps _ _ s).inv hs hrun
  | trapIn => cases h; exact (hostWriteText_keeps s _ inRead_keeps).inv hs hrun
  | trapHalt => cases h; exact hs.haltText hrun hpending _

/-- The fetch keeps the invariant: one read and pc. -/
theorem State.Inv.fetch {s : State} (hs : s.Inv) : (fetch s).2.Inv :=
  (hs.intercept s.pc).of_same rfl rfl rfl rfl

/-- Settles O55, by what the step does: nothing, the interrupt, a service that goes on, or a decoded
instruction, whose word is well-formed. -/
theorem everyStepKeepsTheInvariant : Obligations.EveryStepKeepsTheInvariant := by
  unfold Obligations.EveryStepKeepsTheInvariant
  intro s t hs h
  have hpass : (passStopPoint s).Inv := hs.of_same rfl rfl rfl rfl
  cases hrun : s.run with
  | halted reason =>
    rw [step_of_halted hrun] at h
    cases h
    exact hs
  | running =>
    cases hint : interruptHere s with
    | true =>
      rw [step_of_interruptHere hrun hint] at h
      cases h
      exact hs.takeInterrupt hrun
    | false =>
      cases hpending : s.pending with
      | some service =>
        rw [step_of_pending hrun hint hpending] at h
        cases h
        exact (resume_keeps service (passStopPoint s)).inv hpass hrun
      | none =>
        rw [step_of_fetch hrun hint hpending] at h
        exact exec_keeps_inv (wellFormed_decode _) hpass.fetch (by simp [Machine.fetch, hrun])
          (by simp [Machine.fetch, hpending]) h

end Sys2Proof.Machine
end

section
/-! PROOFS. The statements of 20_memory.md: reads and the keyboard poll (R86, R89, R91, R93), a store before a
fetch (R100), what an instruction changes of memory (R82), and the host interface over a step (R97). -/

namespace Sys2Proof.Machine

/-! ### Ordinary reads -/

/-- A read away from KBSR_ADDR gives the stored word and changes nothing (20_memory.md R86). -/
theorem memRead_of_ne {s : State} {a : Word} (h : a ≠ Config.kbsrAddr) : memRead s a = (memWord s a, s) := by
  rw [memRead, intercept_of_ne h]

/-- Settles O33: only KBSR_ADDR is intercepted. -/
theorem ordinaryReadsChangeNothing : Obligations.OrdinaryReadsChangeNothing := by
  unfold Obligations.OrdinaryReadsChangeNothing
  intro s a ha
  exact memRead_of_ne ha

/-! ### The keyboard poll -/

/-- A character keeps its value as a word (00_scope.md R15). -/
theorem toNat_zext16 (c : Byte) : (zext16 c).toNat = c.toNat :=
  BitVec.toNat_setWidth_of_le (by decide)

/-- A poll leaves of the host's answers what its request leaves (92_eei_decisions.md D10). -/
theorem intercept_kbsr_input (s : State) :
    (intercept s Config.kbsrAddr).input = (hostTryRead s).2.input ∧
      (intercept s Config.kbsrAddr).inputTail = (hostTryRead s).2.inputTail := by
  rw [intercept, if_pos rfl]
  cases h : (hostTryRead s).1 with
  | none => rw [pollKeyboard_none (t := (hostTryRead s).2) (Prod.ext h rfl)]; exact ⟨rfl, rfl⟩
  | some w => rw [pollKeyboard_some (t := (hostTryRead s).2) (Prod.ext h rfl)]; exact ⟨rfl, rfl⟩

/-- A poll uses up one answer of the host. -/
theorem intercept_kbsr_taken (s : State) : AnswersTaken 1 s (intercept s Config.kbsrAddr) := by
  obtain ⟨hinput, htail⟩ := intercept_kbsr_input s
  exact (hostTryRead_taken s).trans (.of_same hinput htail)

/-- Memory after a poll with a byte there (20_memory.md R89; 92_eei_decisions.md D23). -/
theorem memWord_poll_of_hasByte {s : State} {c : Byte} (h : HasByte s c) (b : Word) :
    memWord (intercept s Config.kbsrAddr) b =
      if b = Config.kbdrAddr then zext16 c
      else if b = Config.kbsrAddr then Config.kbReady else memWord s b :=
  memWord_intercept_of_some (congrArg Prod.fst (hostTryRead_of_hasByte h)) b

/-- Memory after a poll with no byte there (20_memory.md R89). -/
theorem memWord_poll_of_noByteYet {s : State} (h : NoByteYet s) (b : Word) :
    memWord (intercept s Config.kbsrAddr) b = if b = Config.kbsrAddr then 0x0000 else memWord s b :=
  memWord_intercept_of_none (congrArg Prod.fst (hostTryRead_of_noByteYet h)) b

/-- With a byte there the poll leaves the ready bit in KBSR (20_memory.md R89). -/
theorem kbsr_poll_of_hasByte {s : State} {c : Byte} (h : HasByte s c) :
    memWord (intercept s Config.kbsrAddr) Config.kbsrAddr = 0x8000 :=
  memWord_poll_of_hasByte h Config.kbsrAddr

/-- With none it clears KBSR (20_memory.md R89). -/
theorem kbsr_poll_of_noByteYet {s : State} (h : NoByteYet s) :
    memWord (intercept s Config.kbsrAddr) Config.kbsrAddr = 0x0000 :=
  memWord_poll_of_noByteYet h Config.kbsrAddr

/-- Settles O34: memory after a poll is known word by word, the rest is the frame of a read. -/
theorem keyboardStatusReadPolls : Obligations.KeyboardStatusReadPolls := by
  unfold Obligations.KeyboardStatusReadPolls
  intro s
  refine ⟨fun c hbyte => ?_, fun hnone => ?_, intercept_kbsr_taken s, intercept_readReg s _,
    intercept_pc s _, intercept_cond s _, ⟨intercept_run s _, intercept_fault s _⟩,
    intercept_output s _, intercept_interruptIn s _, intercept_pending s _⟩
  · have hmem := memWord_poll_of_hasByte hbyte
    refine ⟨kbsr_poll_of_hasByte hbyte, kbsr_poll_of_hasByte hbyte, ?_, fun a ha hb => ?_⟩
    · exact (congrArg BitVec.toNat (hmem 0xFE02)).trans (toNat_zext16 c)
    · exact (hmem a).trans ((if_neg hb).trans (if_neg ha))
  · have hmem := memWord_poll_of_noByteYet hnone
    exact ⟨kbsr_poll_of_noByteYet hnone, kbsr_poll_of_noByteYet hnone,
      fun a ha => (hmem a).trans (if_neg ha)⟩

/-! ### Fetches -/

/-- The fetch at KBSR_ADDR is a poll (20_memory.md R93). -/
theorem fetch_of_kbsr {s : State} (h : s.pc = Config.kbsrAddr) :
    fetch s = (memWord (intercept s Config.kbsrAddr) Config.kbsrAddr,
      setPc (intercept s Config.kbsrAddr) 0xFE01) := by
  simp only [fetch, memRead, h]
  rfl

/-- A BR with no condition named never branches (41_control.md R200). -/
theorem exec_br_zero (offset : BitVec 9) (s : State) : exec (.br 0 offset) s = .next s := by
  simp [exec, execBr, branchTaken]

/-- Settles O51: the word the poll leaves in KBSR is the word fetched, RTI's 0x8000 or BR's 0x0000. -/
theorem fetchAtKeyboardStatus : Obligations.FetchAtKeyboardStatus := by
  unfold Obligations.FetchAtKeyboardStatus
  intro s hrun hpending hint hpc
  have hstep : step s = exec (decode (memWord (intercept s Config.kbsrAddr) Config.kbsrAddr))
      (setPc (intercept s Config.kbsrAddr) 0xFE01) := by
    rw [step_of_fetch hrun (interruptHere_of_none hint) hpending, passStopPoint_of_none hint,
      fetch_of_kbsr hpc]
  have htaken : AnswersTaken 1 s (setPc (intercept s Config.kbsrAddr) 0xFE01) := intercept_kbsr_taken s
  refine ⟨fun c hbyte => ?_, fun hnone => ?_⟩
  · have hmem := memWord_poll_of_hasByte hbyte
    have hfault : step s =
        .next (raiseFault (setPc (intercept s Config.kbsrAddr) 0xFE01) .illegalOpcode 0x8000) := by
      rw [hstep, kbsr_poll_of_hasByte hbyte, show decode 0x8000 = .rti 0 by decide]
      rfl
    have hrecord : (raiseFault (setPc (intercept s Config.kbsrAddr) 0xFE01) .illegalOpcode 0x8000).fault =
        some ⟨.illegalOpcode, 0x8000, 0xFE00⟩ := by
      rw [raiseFault_fault, setPc_pc]
      decide
    exact ⟨_, hfault, rfl, hrecord, rfl, hmem 0xFE02, intercept_readReg s _, intercept_cond s _, htaken⟩
  · have hmem := memWord_poll_of_noByteYet hnone
    have hnext : step s = .next (setPc (intercept s Config.kbsrAddr) 0xFE01) := by
      rw [hstep, kbsr_poll_of_noByteYet hnone, show decode 0x0000 = .br 0 0 by decide, exec_br_zero]
    exact ⟨_, hnext, rfl, hmem 0xFE00, fun a ha => (hmem a).trans (if_neg ha), intercept_readReg s _,
      intercept_cond s _, ⟨intercept_run s _, intercept_fault s _⟩, htaken⟩

/-- The effective address of offset 0 is the post-increment pc (10_state.md R45). -/
theorem pcRelative_zero (s : State) : pcRelative s (0 : BitVec 9) = s.pc :=
  BitVec.add_zero s.pc

/-- Settles O31: ST with offset 0 writes the word at pc, and the fetch reads it back. -/
theorem storeIsSeenByTheNextFetch : Obligations.StoreIsSeenByTheNextFetch := by
  unfold Obligations.StoreIsSeenByTheNextFetch
  intro sr s hpc
  have hexec : exec (.st sr 0) s = .next (memWrite s s.pc (readReg s sr)) := by
    rw [exec, execSt, pcRelative_zero]
  refine ⟨_, hexec, ?_⟩
  rw [fetch_of_ne (s := memWrite s s.pc (readReg s sr)) hpc, memWord_memWrite, memWrite_pc, if_pos rfl]

/-! ### What an instruction changes of memory -/

/-- A read that changes a word of memory polls, and the word is one of the keyboard's two (20_memory.md R86). -/
theorem of_memWord_intercept_ne {s : State} {ea a : Word} (h : memWord (intercept s ea) a ≠ memWord s a) :
    ea = Config.kbsrAddr ∧ (a = Config.kbsrAddr ∨ a = Config.kbdrAddr) := by
  refine ⟨by_contra fun hea => h (by rw [intercept_of_ne hea]), by_contra fun ha => h ?_⟩
  obtain ⟨hkbsr, hkbdr⟩ := not_or.1 ha
  exact (intercept_keeps s ea).memory a hkbsr hkbdr

/-- A store changes no word but its own (20_memory.md R90). -/
theorem of_memWord_memWrite_ne {s : State} {ea a v : Word} (h : memWord (memWrite s ea v) a ≠ memWord s a) :
    a = ea :=
  by_contra fun ha => h (by rw [memWord_memWrite, if_neg ha])

/-- A trap service changes no word but the keyboard's two (20_memory.md R82). -/
theorem ServiceKeeps.keyboardWord_of_ne {s t : State} (h : ServiceKeeps s t) {a : Word}
    (ha : memWord t a ≠ memWord s a) : a = Config.kbsrAddr ∨ a = Config.kbdrAddr :=
  by_contra fun hkb => ha (h.memory a (not_or.1 hkb).1 (not_or.1 hkb).2)

/-- Equal memories read the same at every address. -/
theorem memWord_congr {s t : State} (h : t.mem = s.mem) (a : Word) : memWord t a = memWord s a := by
  rw [memWord, h, memWord]

/-- Settles O60, by the instruction: the stores and reads it is made of. -/
theorem onlyStoresAndPollsChangeMemory : Obligations.OnlyStoresAndPollsChangeMemory := by
  unfold Obligations.OnlyStoresAndPollsChangeMemory
  intro i s t a h hchanged
  cases i with
  | br => cases h; split at hchanged <;> exact absurd rfl hchanged
  | jmp | jsr | jsrr | addReg | addImm | andReg | andImm | notReg | lea | rti | res | trapOut | trapUnknown =>
    cases h; exact absurd rfl hchanged
  | trapGetc => cases h; exact absurd (memWord_congr (getcRead_mem s) a) hchanged
  | trapIn => cases h; exact absurd (memWord_congr (hostWriteText_mem s _ inRead_mem) a) hchanged
  | trapHalt =>
    cases h
    have hmem : ∀ t, (haltRun (hostFlush t) .halt).mem = t.mem := fun _ => rfl
    exact absurd (memWord_congr (hostWriteText_mem s _ hmem) a) hchanged
  | ld dr offset =>
    cases h
    obtain ⟨hea, ha⟩ := of_memWord_intercept_ne hchanged
    exact .inl ⟨ha, .inl ⟨dr, offset, rfl, hea⟩⟩
  | ldr dr base offset =>
    cases h
    obtain ⟨hea, ha⟩ := of_memWord_intercept_ne hchanged
    exact .inl ⟨ha, .inr (.inl ⟨dr, base, offset, rfl, hea⟩)⟩
  | ldi dr offset =>
    cases h
    by_cases hread : memWord (indirect s offset).2 a = memWord s a
    · obtain ⟨hea, ha⟩ := of_memWord_intercept_ne (hread.symm ▸ hchanged)
      exact .inl ⟨ha, .inr (.inr (.inl ⟨dr, offset, rfl, .inr hea⟩))⟩
    · obtain ⟨hea, ha⟩ := of_memWord_intercept_ne hread
      exact .inl ⟨ha, .inr (.inr (.inl ⟨dr, offset, rfl, .inl hea⟩))⟩
  | st sr offset => cases h; exact .inr (.inl ⟨sr, offset, rfl, of_memWord_memWrite_ne hchanged⟩)
  | str sr base offset =>
    cases h
    exact .inr (.inr (.inl ⟨sr, base, offset, rfl, of_memWord_memWrite_ne hchanged⟩))
  | sti sr offset =>
    cases h
    by_cases hread : memWord (indirect s offset).2 a = memWord s a
    · have ha := of_memWord_memWrite_ne (hread.symm ▸ hchanged)
      exact .inr (.inr (.inr ⟨sr, offset, rfl, ha⟩))
    · obtain ⟨hea, ha⟩ := of_memWord_intercept_ne hread
      exact .inl ⟨ha, .inr (.inr (.inr (.inl ⟨sr, offset, rfl, hea⟩)))⟩
  | trapPuts unread =>
    cases h
    exact .inl ⟨(putsFrom_keeps _ _ s).keyboardWord_of_ne hchanged,
      .inr (.inr (.inr (.inr (.inl ⟨unread, rfl⟩))))⟩
  | trapPutsp unread =>
    cases h
    exact .inl ⟨(putspFrom_keeps _ _ s).keyboardWord_of_ne hchanged,
      .inr (.inr (.inr (.inr (.inr ⟨unread, rfl⟩))))⟩

/-! ### The host interface over a step -/

/-- Output is only appended to and the host's answers are used up in order: from `s` to `t` (20_memory.md R97,
log 6, log 12). -/
def HostProgress (s t : State) : Prop :=
  (∃ new, t.output = s.output ++ new) ∧ ∃ k, AnswersTaken k s t

namespace HostProgress

variable {s t u : State}

/-- Output may be appended to where no answer is taken. -/
theorem of_appended {new : List OutputEvent} (hout : t.output = s.output ++ new) (hinput : t.input = s.input)
    (htail : t.inputTail = s.inputTail) : HostProgress s t :=
  ⟨⟨new, hout⟩, 0, .of_same hinput htail⟩

/-- A change of anything but the host's side. -/
theorem of_same (hout : t.output = s.output) (hinput : t.input = s.input)
    (htail : t.inputTail = s.inputTail) : HostProgress s t :=
  of_appended (new := []) (by rw [hout, List.append_nil]) hinput htail

theorem trans (h : HostProgress s t) (h' : HostProgress t u) : HostProgress s u := by
  obtain ⟨⟨new, hnew⟩, j, hj⟩ := h
  obtain ⟨⟨more, hmore⟩, k, hk⟩ := h'
  exact ⟨⟨new ++ more, by rw [hmore, hnew, List.append_assoc]⟩, j + k, hj.trans hk⟩

end HostProgress

/-- Every trap service makes progress only. -/
theorem ServiceKeeps.hostProgress {s t : State} (h : ServiceKeeps s t) : HostProgress s t :=
  ⟨h.output, h.answers⟩

/-- A read polls at most. -/
theorem hostProgress_intercept (s : State) (a : Word) : HostProgress s (intercept s a) :=
  (intercept_keeps s a).hostProgress

/-- HALT appends its notice and the flush, or what the interrupt leaves of the notice (43_trap.md R290). -/
theorem hostProgress_haltText (s : State) (text : List Byte) :
    HostProgress s (hostWriteText s text fun t => haltRun (hostFlush t) .halt) := by
  unfold hostWriteText
  split
  · exact .of_appended (List.append_assoc ..) rfl rfl
  · split
    · exact .of_appended rfl rfl rfl
    · exact .of_appended (List.append_assoc ..) rfl rfl

/-- Every instruction makes progress only. -/
theorem exec_hostProgress {i : Instr} {s t : State} (h : exec i s = .next t) : HostProgress s t := by
  cases i with
  | br => cases h; split <;> exact .of_same rfl rfl rfl
  | jmp | jsr | jsrr | addReg | addImm | andReg | andImm | notReg | lea | st | str | rti | res
  | trapUnknown => cases h; exact .of_same rfl rfl rfl
  | ld | ldr => cases h; exact hostProgress_intercept s _
  | ldi => cases h; exact (hostProgress_intercept s _).trans (hostProgress_intercept _ _)
  | sti => cases h; exact hostProgress_intercept s _
  | trapOut => cases h; exact .of_appended (List.append_assoc ..) rfl rfl
  | trapGetc => cases h; exact (getcRead_keeps s).hostProgress
  | trapPuts => cases h; exact (putsFrom_keeps _ _ s).hostProgress
  | trapPutsp => cases h; exact (putspFrom_keeps _ _ s).hostProgress
  | trapIn => cases h; exact (hostWriteText_keeps s _ inRead_keeps).hostProgress
  | trapHalt => cases h; exact hostProgress_haltText s _

/-- Settles O58, by what the step does: nothing, the interrupt, a service that goes on, or a fetch and its
instruction. -/
theorem outputGrowsAndInputIsTakenInOrder : Obligations.OutputGrowsAndInputIsTakenInOrder := by
  unfold Obligations.OutputGrowsAndInputIsTakenInOrder
  intro s t h
  change HostProgress s t
  cases hrun : s.run with
  | halted reason =>
    rw [step_of_halted hrun] at h
    cases h
    exact .of_same rfl rfl rfl
  | running =>
    cases hint : interruptHere s with
    | true =>
      rw [step_of_interruptHere hrun hint] at h
      cases h
      exact .of_same rfl rfl rfl
    | false =>
      have hpass : HostProgress s (passStopPoint s) := .of_same rfl rfl rfl
      cases hpending : s.pending with
      | some service =>
        rw [step_of_pending hrun hint hpending] at h
        cases h
        exact hpass.trans (resume_keeps service _).hostProgress
      | none =>
        rw [step_of_fetch hrun hint hpending] at h
        have hfetch : HostProgress (passStopPoint s) (fetch (passStopPoint s)).2 :=
          hostProgress_intercept _ _
        exact hpass.trans (hfetch.trans (exec_hostProgress h))

end Sys2Proof.Machine
end

section
/-! PROOFS. The statements of 30_encoding.md: decoder and encoder are inverse (R131, R132, R134), the rows of the
opcode table (R134), written-out words (R138, R139), unread bits (R131). -/

namespace Sys2Proof

/-- Settles O1: no field is lost, the vector of an unknown trap being none of the services'. -/
theorem decodeOfEncodeIsTheInstruction : Obligations.DecodeOfEncodeIsTheInstruction := by
  unfold Obligations.DecodeOfEncodeIsTheInstruction
  intro i hi
  exact decode_encode hi

/-! ### A word put together from its fields -/

/-- Two fields that touch make one. -/
theorem bitField_append (w : Word) {low mid len len' : Nat} (h : mid = low + len) :
    bitField w mid len' ++ bitField w low len = bitField w low (len' + len) :=
  BitVec.extractLsb'_append_extractLsb'_eq_extractLsb' h

/-- The field of all 16 bits is the word. -/
theorem bitField_all (w : Word) : bitField w 0 16 = w := BitVec.extractLsb'_eq_self

/-- The number of a word's opcode is ir[15:12] (30_encoding.md R121). -/
@[simp] theorem bits_opcodeOf (w : Word) : (opcodeOf w).bits = bitField w 12 4 := bits_opcodeOfBits _

@[simp] theorem bits_fieldDr (w : Word) : (fieldDr w).bits = bitField w 9 3 := bits_regOfBits _

@[simp] theorem bits_fieldSr1 (w : Word) : (fieldSr1 w).bits = bitField w 6 3 := bits_regOfBits _

@[simp] theorem bits_fieldSr2 (w : Word) : (fieldSr2 w).bits = bitField w 0 3 := bits_regOfBits _

/-! ### Each format gives back the word its fields are read from (30_encoding.md R132) -/

section

variable {w : Word} {op : Opcode}

theorem encodePc9_fields (h : opcodeOf w = op) : encodePc9 op (fieldDr w) (bitField w 0 9) = w := by
  subst h
  simp only [encodePc9, bits_opcodeOf, bits_fieldDr, bitField_append]
  exact bitField_all w

theorem encodeBase6_fields (h : opcodeOf w = op) :
    encodeBase6 op (fieldDr w) (fieldSr1 w) (bitField w 0 6) = w := by
  subst h
  simp only [encodeBase6, bits_opcodeOf, bits_fieldDr, bits_fieldSr1, bitField_append]
  exact bitField_all w

theorem encodeOpr_fields (h : opcodeOf w = op) (hmode : w.getLsbD 5 = false) :
    encodeOpr op (fieldDr w) (fieldSr1 w) (fieldSr2 w) (bitField w 3 2) = w := by
  subst h
  have hbit : 0#1 = bitField w 5 1 := (bitField_one hmode).symm
  simp only [encodeOpr, bits_opcodeOf, bits_fieldDr, bits_fieldSr1, bits_fieldSr2, hbit, bitField_append]
  exact bitField_all w

theorem encodeOpi_fields (h : opcodeOf w = op) (hmode : w.getLsbD 5 = true) :
    encodeOpi op (fieldDr w) (fieldSr1 w) (bitField w 0 5) = w := by
  subst h
  have hbit : 1#1 = bitField w 5 1 := (bitField_one hmode).symm
  simp only [encodeOpi, bits_opcodeOf, bits_fieldDr, bits_fieldSr1, hbit, bitField_append]
  exact bitField_all w

theorem encodeNone_fields (h : opcodeOf w = op) : encodeNone op (bitField w 0 12) = w := by
  subst h
  simp only [encodeNone, bits_opcodeOf, bitField_append]
  exact bitField_all w

theorem encodeTrap_fields (h : opcodeOf w = .trap) : encodeTrap (bitField w 8 4) (bitField w 0 8) = w := by
  simp only [encodeTrap, ← h, bits_opcodeOf, bitField_append]
  exact bitField_all w

theorem encode_br_fields (h : opcodeOf w = .br) : encode (.br (bitField w 9 3) (bitField w 0 9)) = w := by
  simp only [encode, ← h, bits_opcodeOf, bitField_append]
  exact bitField_all w

theorem encode_jmp_fields (h : opcodeOf w = .jmp) :
    encode (.jmp (fieldSr1 w) (bitField w 9 3) (bitField w 0 6)) = w := by
  simp only [encode, ← h, bits_opcodeOf, bits_fieldSr1, bitField_append]
  exact bitField_all w

theorem encode_jsr_fields (h : opcodeOf w = .jsr) (hlong : w.getLsbD 11 = true) :
    encode (.jsr (bitField w 0 11)) = w := by
  have hbit : 1#1 = bitField w 11 1 := (bitField_one hlong).symm
  simp only [encode, ← h, bits_opcodeOf, hbit, bitField_append]
  exact bitField_all w

theorem encode_jsrr_fields (h : opcodeOf w = .jsr) (hlong : w.getLsbD 11 = false) :
    encode (.jsrr (fieldSr1 w) (bitField w 9 2) (bitField w 0 6)) = w := by
  have hbit : 0#1 = bitField w 11 1 := (bitField_one hlong).symm
  simp only [encode, ← h, bits_opcodeOf, bits_fieldSr1, hbit, bitField_append]
  exact bitField_all w

end

/-- The trap dispatcher keeps the vector: a service's word holds the service's own (43_trap.md R280). -/
theorem encode_decodeTrap (unread : BitVec 4) (vector : BitVec 8) :
    encode (decodeTrap unread vector) = encodeTrap unread vector := by
  unfold decodeTrap
  split
  case h_7 => rfl
  all_goals
    next hvector =>
      obtain ⟨-, rfl⟩ := BitVec.toNat_eq_nat.1 hvector
      rfl

/-- The encoder gives every word back from its decoding (30_encoding.md R132, R134). -/
theorem encode_decode (w : Word) : encode (decode w) = w := by
  unfold decode
  cases h : opcodeOf w with
  | br => exact encode_br_fields h
  | ld | st | ldi | sti | lea => exact encodePc9_fields h
  | ldr | str | not => exact encodeBase6_fields h
  | rti | res => exact encodeNone_fields h
  | jmp => exact encode_jmp_fields h
  | trap => exact (encode_decodeTrap _ _).trans (encodeTrap_fields h)
  | add | and =>
    cases hmode : w.getLsbD 5 with
    | true => exact encodeOpi_fields h hmode
    | false => exact encodeOpr_fields h hmode
  | jsr =>
    cases hlong : w.getLsbD 11 with
    | true => exact encode_jsr_fields h hlong
    | false => exact encode_jsrr_fields h hlong

/-- Settles O2: the fields that the decoder reads leave out no bit of the word. -/
theorem encodeOfDecodeIsTheWord : Obligations.EncodeOfDecodeIsTheWord := by
  unfold Obligations.EncodeOfDecodeIsTheWord
  intro w
  exact ⟨encode_decode w, wellFormed_decode w⟩

/-! ### The opcode table (30_encoding.md R134) -/

/-- Whether no word is selected by both rows, by their bits alone: they differ in a bit that both fix, or the
second leaves out the services' vectors and the first fixes one of them. -/
def TableRow.Excludes (r r' : TableRow) : Prop :=
  r.bits &&& r'.mask ≠ r'.bits &&& r.mask ∨
    r'.otherVectorsOnly = true ∧ bitField r.mask 0 8 = BitVec.allOnes 8 ∧
      isServiceVector (bitField r.bits 0 8) = true

/-- What a row that selects a word says of it. -/
theorem TableRow.selects_iff (r : TableRow) (w : Word) :
    r.selects w = true ↔
      w &&& r.mask = r.bits ∧ ¬(r.otherVectorsOnly = true ∧ isServiceVector (bitField w 0 8) = true) := by
  simp only [TableRow.selects, Bool.and_eq_true, beq_iff_eq, Bool.not_eq_true', ← Bool.not_eq_true]

/-- Masking works on each field. -/
theorem bitField_and (w v : Word) (low len : Nat) :
    bitField (w &&& v) low len = bitField w low len &&& bitField v low len :=
  BitVec.extractLsb'_and

/-- Two rows of which one excludes the other select no word in common. -/
theorem TableRow.Excludes.not_both {r r' : TableRow} (h : r.Excludes r') {w : Word}
    (hr : r.selects w = true) (hr' : r'.selects w = true) : False := by
  obtain ⟨hbits, -⟩ := (r.selects_iff w).1 hr
  obtain ⟨hbits', hother⟩ := (r'.selects_iff w).1 hr'
  rcases h with hdiffer | ⟨honly, hmask, hservice⟩
  · exact hdiffer (by rw [← hbits, ← hbits', BitVec.and_assoc, BitVec.and_assoc, BitVec.and_comm r.mask])
  · have hvector : bitField r.bits 0 8 = bitField w 0 8 := by
      rw [← hbits, bitField_and, hmask, BitVec.and_allOnes]
    exact hother ⟨honly, hvector ▸ hservice⟩

/-- The rows are disjoint (30_encoding.md R134). -/
theorem opcodeTable_pairwise_excludes : opcodeTable.Pairwise TableRow.Excludes := by
  unfold TableRow.Excludes
  decide

/-- The row of an instruction is a row of the table. -/
theorem Instr.row_mem_opcodeTable (i : Instr) : i.row ∈ opcodeTable := by
  cases i <;> simp [Instr.row, opcodeTable]

/-- The row of a well-formed instruction selects its word: the lemmas of the constructors together. -/
theorem row_selects_encode : ∀ i : Instr, Laws.RowOfWord.Statement i
  | .br _ _ => Laws.RowOfWord.br _ _
  | .addReg _ _ _ _ => Laws.RowOfWord.addReg _ _ _ _
  | .addImm _ _ _ => Laws.RowOfWord.addImm _ _ _
  | .ld _ _ => Laws.RowOfWord.ld _ _
  | .st _ _ => Laws.RowOfWord.st _ _
  | .jsrr _ _ _ => Laws.RowOfWord.jsrr _ _ _
  | .jsr _ => Laws.RowOfWord.jsr _
  | .andReg _ _ _ _ => Laws.RowOfWord.andReg _ _ _ _
  | .andImm _ _ _ => Laws.RowOfWord.andImm _ _ _
  | .ldr _ _ _ => Laws.RowOfWord.ldr _ _ _
  | .str _ _ _ => Laws.RowOfWord.str _ _ _
  | .rti _ => Laws.RowOfWord.rti _
  | .notReg _ _ _ => Laws.RowOfWord.notReg _ _ _
  | .ldi _ _ => Laws.RowOfWord.ldi _ _
  | .sti _ _ => Laws.RowOfWord.sti _ _
  | .jmp _ _ _ => Laws.RowOfWord.jmp _ _ _
  | .res _ => Laws.RowOfWord.res _
  | .lea _ _ => Laws.RowOfWord.lea _ _
  | .trapGetc _ => Laws.RowOfWord.trapGetc _
  | .trapOut _ => Laws.RowOfWord.trapOut _
  | .trapPuts _ => Laws.RowOfWord.trapPuts _
  | .trapIn _ => Laws.RowOfWord.trapIn _
  | .trapPutsp _ => Laws.RowOfWord.trapPutsp _
  | .trapHalt _ => Laws.RowOfWord.trapHalt _
  | .trapUnknown _ _ => Laws.RowOfWord.trapUnknown _ _

/-- A word is selected by the row of its decoding. -/
theorem row_decode_selects (w : Word) : (decode w).row.selects w = true := by
  have h := row_selects_encode (decode w) (wellFormed_decode w)
  rwa [encode_decode] at h

/-- Of rows that exclude each other no more than one selects a word. -/
theorem eq_singleton_of_pairwise_excludes {rows : List TableRow} {r : TableRow} {w : Word}
    (hrows : rows.Pairwise TableRow.Excludes) (hselect : ∀ r' ∈ rows, r'.selects w = true) (hr : r ∈ rows) :
    rows = [r] := by
  match rows with
  | [r'] => rw [List.mem_singleton.1 hr]
  | a :: b :: rest =>
    have hab : a.Excludes b := List.rel_of_pairwise_cons hrows List.mem_cons_self
    exact (hab.not_both (hselect a (by simp)) (hselect b (by simp))).elim

/-- Settles O3: the row of the decoding selects the word, and the rows are disjoint. -/
theorem everyWordSelectsExactlyOneRow : Obligations.EveryWordSelectsExactlyOneRow := by
  unfold Obligations.EveryWordSelectsExactlyOneRow
  refine ⟨rfl, fun w => eq_singleton_of_pairwise_excludes (opcodeTable_pairwise_excludes.filter _)
    (fun r hr => (List.mem_filter.1 hr).2) ?_⟩
  exact List.mem_filter.2 ⟨(decode w).row_mem_opcodeTable, row_decode_selects w⟩

/-! ### Written-out words and unread bits -/

/-- Settles O4: each word is decoded by computation. -/
theorem writtenOutWordsDecode : Obligations.WrittenOutWordsDecode := by
  unfold Obligations.WrittenOutWordsDecode
  decide

/-- Settles O5: no meaning of the listed instructions uses its unread arguments. -/
theorem unreadBitsChangeNothing : Obligations.UnreadBitsChangeNothing := by
  unfold Obligations.UnreadBitsChangeNothing
  intro dr a b s
  exact ⟨fun _ _ => ⟨rfl, rfl⟩, fun _ _ => rfl, fun _ _ _ _ => rfl, fun _ _ _ _ => rfl,
    fun _ _ => ⟨rfl, rfl, rfl, rfl, rfl, rfl⟩⟩

end Sys2Proof
end

section
/-! PROOFS. The statements of 40_operate.md: ADD (R160, R161), AND (R163, R164) and NOT (R166). Each decodes from
the word of its format (30_encoding.md R132) and ends in one flag-setting write. -/

namespace Sys2Proof.Machine

/-! ### The flag-setting write -/

/-- A flag-setting write's register reads back the value written. -/
@[simp] theorem readReg_writeAndSetcc_self (s : State) (r : Reg) (v : Word) :
    readReg (writeAndSetcc s r v) r = v := by
  simp [writeAndSetcc]

/-- A flag-setting write leaves cond the condition of the value written (10_state.md R50). -/
@[simp] theorem writeAndSetcc_cond (s : State) (r : Reg) (v : Word) :
    (writeAndSetcc s r v).cond = condOf v := by
  simp [writeAndSetcc]

/-- The condition after a flag-setting write reads the value stored (10_state.md R50, R51). -/
theorem condReads_writeAndSetcc (s : State) (r : Reg) (v : Word) :
    CondReads (writeAndSetcc s r v).cond (readReg (writeAndSetcc s r v) r) := by
  rw [writeAndSetcc_cond, readReg_writeAndSetcc_self]
  exact condReads_condOf v

/-- The frame of a flag-setting write: its register and cond apart, everything is as before. -/
theorem writeAndSetcc_onlyRegAndCond (s : State) (r : Reg) (v : Word) :
    OnlyRegAndCond s (writeAndSetcc s r v) r :=
  ⟨fun _ hq => readReg_writeAndSetcc_of_ne hq s v, rfl, fun _ => rfl, ⟨rfl, rfl⟩, ⟨rfl, rfl⟩,
    ⟨rfl, rfl, rfl⟩⟩

/-! ### ADD -/

/-- Settles O15: the word sum is the sum modulo 65536, of the sources as they were before the write. -/
theorem addRegisterWritesTheSum : Obligations.AddRegisterWritesTheSum := by
  unfold Obligations.AddRegisterWritesTheSum
  intro dr sr1 sr2 u s
  refine ⟨decode_encode (i := .addReg dr sr1 sr2 u) rfl, _, rfl, ?_, condReads_writeAndSetcc s dr _,
    writeAndSetcc_onlyRegAndCond s dr _⟩
  rw [readReg_writeAndSetcc_self]
  exact BitVec.toNat_add _ _

/-- Settles O16: a sum with an extended field is the signed sum with the field. -/
theorem addImmediateWritesTheSum : Obligations.AddImmediateWritesTheSum := by
  unfold Obligations.AddImmediateWritesTheSum
  intro dr sr1 imm s
  refine ⟨decode_encode (i := .addImm dr sr1 imm) rfl, _, rfl, ?_, condReads_writeAndSetcc s dr _,
    writeAndSetcc_onlyRegAndCond s dr _⟩
  rw [readReg_writeAndSetcc_self]
  exact isSum_add_sext16 (readReg s sr1) imm (by decide)

/-! ### AND -/

/-- Settles O17: the conjunction of words is taken bit by bit. -/
theorem andRegisterWritesTheConjunction : Obligations.AndRegisterWritesTheConjunction := by
  unfold Obligations.AndRegisterWritesTheConjunction
  intro dr sr1 sr2 u s
  refine ⟨decode_encode (i := .andReg dr sr1 sr2 u) rfl, _, rfl, fun i => ?_, condReads_writeAndSetcc s dr _,
    writeAndSetcc_onlyRegAndCond s dr _⟩
  rw [readReg_writeAndSetcc_self]
  exact BitVec.getLsbD_and

/-- A conjunction with an extended field, bit by bit; a word has no bit from 16 on (00_scope.md R15). -/
theorem getLsbD_and_sext16 {n : Nat} (v : Word) (f : BitVec n) (i : Nat) :
    (v &&& sext16 f).getLsbD i = (v.getLsbD i && if i < n then f.getLsbD i else f.msb) := by
  rw [BitVec.getLsbD_and]
  by_cases hi : i < 16
  · rw [getLsbD_sext16 f hi]
  · rw [BitVec.getLsbD_of_ge v i (Nat.le_of_not_lt hi), Bool.false_and, Bool.false_and]

/-- The mask of imm5 = 0 clears every source (40_operate.md R164). -/
theorem and_sext16_zero (v : Word) : v &&& sext16 (0 : BitVec 5) = 0x0000 := by
  rw [show sext16 (0 : BitVec 5) = 0#16 by decide]
  exact BitVec.and_zero

/-- Settles O18: the top bit of imm5, its bit 4, is the mask's bit from 5 on. -/
theorem andImmediateWritesTheConjunction : Obligations.AndImmediateWritesTheConjunction := by
  unfold Obligations.AndImmediateWritesTheConjunction
  intro dr sr1 imm s
  refine ⟨decode_encode (i := .andImm dr sr1 imm) rfl, _, rfl, fun i => ?_, fun hzero => ?_,
    condReads_writeAndSetcc s dr _, writeAndSetcc_onlyRegAndCond s dr _⟩
  · rw [readReg_writeAndSetcc_self, getLsbD_and_sext16, BitVec.msb_eq_getLsbD_last]
  · rw [readReg_writeAndSetcc_self, writeAndSetcc_cond, hzero, and_sext16_zero]
    exact ⟨rfl, condOf_of_zero rfl⟩

/-! ### NOT -/

/-- Settles O19: the complement of a word is 65535 minus it. -/
theorem notWritesTheComplement : Obligations.NotWritesTheComplement := by
  unfold Obligations.NotWritesTheComplement
  intro dr sr u s
  refine ⟨decode_encode (i := .notReg dr sr u) rfl, _, rfl, ?_, condReads_writeAndSetcc s dr _,
    writeAndSetcc_onlyRegAndCond s dr _⟩
  rw [readReg_writeAndSetcc_self]
  exact BitVec.toNat_not

end Sys2Proof.Machine
end

section
/-! PROOFS. The statements of 41_control.md: BR (R200), JMP and RET (R201, R202), JSR (R203) and JSRR (R204). Each
decodes from the word of its format (30_encoding.md R132) and writes pc last; a call writes its link before. -/

namespace Sys2Proof.Machine

/-! ### Jumps and links -/

/-- The frame of a jump: pc apart, everything is as before. -/
theorem setPc_onlyPc (s : State) (target : Word) : OnlyPc s (setPc s target) :=
  ⟨fun _ => rfl, rfl, fun _ => rfl, ⟨rfl, rfl⟩, ⟨rfl, rfl⟩, ⟨rfl, rfl, rfl⟩⟩

/-- An instruction that falls through keeps the frame of a jump. -/
theorem onlyPc_refl (s : State) : OnlyPc s s := setPc_onlyPc s s.pc

/-- A register read after the link is written: R7 gives the link (92_eei_decisions.md D5). -/
theorem readReg_link (s : State) (q : Reg) : readReg (link s) q = if q = .r7 then s.pc else readReg s q :=
  readReg_writeReg s .r7 q s.pc

/-- The link register holds the post-increment pc (41_control.md R203). -/
theorem readReg_link_r7 (s : State) : readReg (link s) .r7 = s.pc :=
  (readReg_link s .r7).trans (if_pos rfl)

/-- The frame of a call: pc and the link register apart, everything is as before. -/
theorem setPc_link_onlyPcAndLink (s : State) (target : Word) : OnlyPcAndLink s (setPc (link s) target) :=
  ⟨fun _ hq => readReg_link_of_ne hq s, rfl, fun _ => rfl, ⟨rfl, rfl⟩, ⟨rfl, rfl⟩, ⟨rfl, rfl, rfl⟩⟩

/-! ### BR -/

/-- A mask meets the condition register when its bit for the flag that is set is 1: bit 2 for N, bit 1 for Z,
bit 0 for P (10_state.md R49, R54). -/
theorem and_condBits_bne_zero_iff (nzp : BitVec 3) (c : Cond) :
    (nzp &&& c.bits != 0b000) = true ↔
      (nzp.getLsbD 2 = true ∧ c = .n) ∨ (nzp.getLsbD 1 = true ∧ c = .z) ∨ (nzp.getLsbD 0 = true ∧ c = .p) := by
  cases c <;> revert nzp <;> decide

/-- BR's test, by the bits of nzp (41_control.md R200). -/
theorem branchTaken_iff (s : State) (nzp : BitVec 3) :
    branchTaken s nzp = true ↔ (nzp.getLsbD 2 = true ∧ s.cond = .n) ∨ (nzp.getLsbD 1 = true ∧ s.cond = .z) ∨
      (nzp.getLsbD 0 = true ∧ s.cond = .p) :=
  and_condBits_bne_zero_iff nzp s.cond

/-- Settles O20: the branch goes to its target or falls through as its test says. -/
theorem branchGoesToItsTargetOrOn : Obligations.BranchGoesToItsTargetOrOn := by
  unfold Obligations.BranchGoesToItsTargetOrOn
  intro nzp offset s
  refine ⟨decode_encode (i := .br nzp offset) rfl, _, rfl, ?_⟩
  simp only [← branchTaken_iff]
  by_cases htaken : branchTaken s nzp = true
  · rw [if_pos htaken, if_pos htaken]
    exact ⟨isSum_add_sext16 s.pc offset (by decide), setPc_onlyPc s _⟩
  · rw [if_neg htaken, if_neg htaken]
    exact ⟨rfl, onlyPc_refl s⟩

/-! ### JMP and RET -/

/-- Settles O21: RET is the JMP of R7 whose unread bits are 0. -/
theorem jumpGoesToTheBaseRegister : Obligations.JumpGoesToTheBaseRegister := by
  unfold Obligations.JumpGoesToTheBaseRegister
  intro base h l s
  exact ⟨decode_encode (i := .jmp base h l) rfl, decode_encode (i := .jmp .r7 0 0) rfl, _, rfl, rfl,
    setPc_onlyPc s (readReg s base)⟩

/-! ### JSR and JSRR -/

/-- Settles O22: the target is a sum with the pc that the link also holds. -/
theorem jumpSubroutineLinksAndJumps : Obligations.JumpSubroutineLinksAndJumps := by
  unfold Obligations.JumpSubroutineLinksAndJumps
  intro offset s
  exact ⟨decode_encode (i := .jsr offset) rfl, _, rfl, readReg_link_r7 s,
    isSum_add_sext16 s.pc offset (by decide), setPc_link_onlyPcAndLink s (pcRelative s offset)⟩

/-- Settles O23: the base register is read after the link is written, so that R7 as the base gives the link. -/
theorem jumpSubroutineRegisterLinksThenReads : Obligations.JumpSubroutineRegisterLinksThenReads := by
  unfold Obligations.JumpSubroutineRegisterLinksThenReads
  intro base h l s
  exact ⟨decode_encode (i := .jsrr base h l) rfl, _, rfl, readReg_link_r7 s, readReg_link s base,
    setPc_link_onlyPcAndLink s (readReg (link s) base)⟩

end Sys2Proof.Machine
end

section
/-! PROOFS. The statements of 42_load_store.md: the loads LD, LDI and LDR (R240 to R242), LEA (R243) and the stores
ST, STI and STR (R244 to R246). Each decodes from the word of its format (30_encoding.md R132); a load ends in one
read through the bridge and one flag-setting write, a store in one plain store. -/

namespace Sys2Proof.Machine

/-! ### What reads leave -/

/-- What the reads of an instruction leave as it was: all but the keyboard's words and the input that a poll
takes (20_memory.md R86, R89). -/
structure ReadKeeps (s r : State) : Prop where
  regs : SameRegs s r
  pc : r.pc = s.pc
  cond : r.cond = s.cond
  run : SameRun s r
  outside : SameOutside s r

/-- No read. -/
theorem ReadKeeps.refl (s : State) : ReadKeeps s s :=
  ⟨fun _ => rfl, rfl, rfl, ⟨rfl, rfl⟩, ⟨rfl, rfl, rfl⟩⟩

/-- One more read, a poll included. -/
theorem ReadKeeps.memRead {s r : State} (h : ReadKeeps s r) (ea : Word) : ReadKeeps s (memRead r ea).2 := by
  obtain ⟨hregs, hpc, hcond, ⟨hrun, hfault⟩, houtput, hint, hpending⟩ := h
  exact ⟨fun q => (intercept_readReg r ea q).trans (hregs q), (intercept_pc r ea).trans hpc,
    (intercept_cond r ea).trans hcond, ⟨(intercept_run r ea).trans hrun, (intercept_fault r ea).trans hfault⟩,
    (intercept_output r ea).trans houtput, (intercept_interruptIn r ea).trans hint,
    (intercept_pending r ea).trans hpending⟩

/-! ### Loads -/

/-- A flag-setting write in the state `r` after the reads gives the result of a load. -/
theorem writeAndSetcc_loadResult {s r : State} (h : ReadKeeps s r) (dr : Reg) (v : Word) :
    LoadResult s r (writeAndSetcc r dr v) dr v := by
  have hcond : CondReads (writeAndSetcc r dr v).cond v := by
    rw [writeAndSetcc_cond]
    exact condReads_condOf v
  exact ⟨readReg_writeAndSetcc_self r dr v, hcond,
    fun q hq => (readReg_writeAndSetcc_of_ne hq r v).trans (h.regs q), h.pc, fun _ => rfl, ⟨rfl, rfl⟩, h.run,
    h.outside⟩

/-- The end of LD, LDI and LDR, its data read made in the state `r` (42_load_store.md R240 to R242). -/
theorem loadInto_loadResult {s r : State} (h : ReadKeeps s r) (dr : Reg) (ea : Word) :
    LoadResult s (memRead r ea).2 (loadInto dr ea r) dr (memRead r ea).1 :=
  writeAndSetcc_loadResult (h.memRead ea) dr (memRead r ea).1

/-- Away from KBSR_ADDR a load gives the stored word, and its data read changes nothing (20_memory.md R86). -/
theorem loadInto_loadResult_of_ne (s : State) (dr : Reg) {ea : Word} (hea : ea ≠ Config.kbsrAddr) :
    LoadResult s s (loadInto dr ea s) dr (memWord s ea) := by
  have hload := loadInto_loadResult (.refl s) dr ea
  rwa [memRead_of_ne hea] at hload

/-- The pointer read of LDI and STI away from KBSR_ADDR (42_load_store.md R241, R245). -/
theorem indirect_of_ne {s : State} {offset : BitVec 9} (h : pcRelative s offset ≠ Config.kbsrAddr) :
    indirect s offset = (memWord s (pcRelative s offset), s) :=
  memRead_of_ne h

/-- Settles O24: at KBSR_ADDR the word loaded is the one the poll leaves there. -/
theorem loadReadsThroughTheBridge : Obligations.LoadReadsThroughTheBridge := by
  unfold Obligations.LoadReadsThroughTheBridge
  intro dr offset s
  have hload := loadInto_loadResult (.refl s) dr (pcRelative s offset)
  refine ⟨decode_encode (i := .ld dr offset) rfl, _, rfl, hload, loadInto_loadResult_of_ne s dr, fun hea => ?_⟩
  obtain ⟨hvalue, -⟩ := hload
  rw [hvalue, hea]
  exact memWord_intercept_kbsr s

/-- Settles O25: the data read is made in the state after the pointer read; away from KBSR_ADDR that is the state
before it. -/
theorem loadIndirectReadsTwice : Obligations.LoadIndirectReadsTwice := by
  unfold Obligations.LoadIndirectReadsTwice
  intro dr offset s
  refine ⟨decode_encode (i := .ldi dr offset) rfl, _, rfl,
    loadInto_loadResult ((ReadKeeps.refl s).memRead (pcRelative s offset)) dr _, fun hea hpointer => ?_⟩
  rw [indirect_of_ne hea]
  exact loadInto_loadResult_of_ne s dr hpointer

/-- Settles O26: the address is computed before the read and the write, so from the old base. -/
theorem loadRegisterReadsThroughTheBridge : Obligations.LoadRegisterReadsThroughTheBridge := by
  unfold Obligations.LoadRegisterReadsThroughTheBridge
  intro dr base offset s
  exact ⟨decode_encode (i := .ldr dr base offset) rfl, _, rfl,
    loadInto_loadResult (.refl s) dr (baseOffset s base offset), loadInto_loadResult_of_ne s dr⟩

/-! ### LEA -/

/-- Settles O27: a flag-setting write of the address, without a read. -/
theorem loadEffectiveAddressSetsFlags : Obligations.LoadEffectiveAddressSetsFlags := by
  unfold Obligations.LoadEffectiveAddressSetsFlags
  intro dr offset s
  refine ⟨decode_encode (i := .lea dr offset) rfl, _, rfl, ?_, condReads_writeAndSetcc s dr _,
    writeAndSetcc_onlyRegAndCond s dr _⟩
  rw [readReg_writeAndSetcc_self]
  exact isSum_add_sext16 s.pc offset (by decide)

/-! ### Stores -/

/-- A store is read back at its own address (20_memory.md R90). -/
theorem memWord_memWrite_self (s : State) (a v : Word) : memWord (memWrite s a v) a = v :=
  (memWord_memWrite s a a v).trans (if_pos rfl)

/-- Settles O28: a plain store at every address, the keyboard's included (20_memory.md R90). -/
theorem storeWritesOneWord : Obligations.StoreWritesOneWord := by
  unfold Obligations.StoreWritesOneWord
  intro sr offset s
  exact ⟨decode_encode (i := .st sr offset) rfl, _, rfl,
    memWord_memWrite_self s (pcRelative s offset) (readReg s sr), memWrite_onlyWordAt s _ _⟩

/-- STI stores the register as it was before the pointer read, which changes no register (42_load_store.md
R245). -/
theorem exec_sti (sr : Reg) (offset : BitVec 9) (s : State) : exec (.sti sr offset) s =
    .next (memWrite (indirect s offset).2 (indirect s offset).1 (readReg s sr)) := by
  have hsr : readReg (indirect s offset).2 sr = readReg s sr := intercept_readReg s (pcRelative s offset) sr
  rw [exec, execSti, hsr]

/-- Settles O29: the store's frame is taken against the state after the pointer read, which keeps all but the
keyboard's words and the input, and away from KBSR_ADDR everything. -/
theorem storeIndirectWritesThroughThePointer : Obligations.StoreIndirectWritesThroughThePointer := by
  unfold Obligations.StoreIndirectWritesThroughThePointer
  intro sr offset s
  have hkeeps : ReadKeeps s (indirect s offset).2 := (ReadKeeps.refl s).memRead (pcRelative s offset)
  refine ⟨decode_encode (i := .sti sr offset) rfl, _, exec_sti sr offset s, memWord_memWrite_self _ _ _,
    memWrite_onlyWordAt _ _ _, hkeeps.regs, hkeeps.pc, hkeeps.cond, hkeeps.run, hkeeps.outside, fun hea => ?_⟩
  rw [indirect_of_ne hea]
  exact ⟨memWord_memWrite_self s _ _, memWrite_onlyWordAt s _ _⟩

/-- Settles O30: a plain store; SR = BaseR needs no case, as both are read before it. -/
theorem storeRegisterWritesOneWord : Obligations.StoreRegisterWritesOneWord := by
  unfold Obligations.StoreRegisterWritesOneWord
  intro sr base offset s
  exact ⟨decode_encode (i := .str sr base offset) rfl, _, rfl,
    memWord_memWrite_self s (baseOffset s base offset) (readReg s sr), memWrite_onlyWordAt s _ _⟩

end Sys2Proof.Machine
end

section
/-! PROOFS. The statements of 43_trap.md: the services (R280 to R290), the unknown vectors (R291) and the end of the
input (R292). What a service writes is a text: a stop point follows each byte of a string as it follows each byte of
the prompt, the echo and the notice, so `hostWriteText` says of all of them what they leave. -/

namespace Sys2Proof.Machine

/-! ### Frames in a row -/

/-- Nothing of registers, pc, cond and memory changes in two parts of a service. -/
theorem SameProgramState.trans {s t u : State} (h : SameProgramState s t) (h' : SameProgramState t u) :
    SameProgramState s u := by
  obtain ⟨hregs, hpc, hcond, hmem⟩ := h
  obtain ⟨hregs', hpc', hcond', hmem'⟩ := h'
  exact ⟨fun q => (hregs' q).trans (hregs q), hpc'.trans hpc, hcond'.trans hcond, fun a => (hmem' a).trans (hmem a)⟩

/-- Nor do run and the fault record. -/
theorem SameRun.trans {s t u : State} (h : SameRun s t) (h' : SameRun t u) : SameRun s u :=
  ⟨h'.1.trans h.1, h'.2.trans h.2⟩

/-- Nor does the host's coming input. -/
theorem SameInput.trans {s t u : State} (h : SameInput s t) (h' : SameInput t u) : SameInput s u :=
  ⟨h'.1.trans h.1, h'.2.trans h.2⟩

/-! ### A text before whose end no interrupt comes -/

/-- The state after a text written whole: its bytes in the output, a stop point passed for each. -/
def textWritten (s : State) (text : List Byte) : State :=
  { s with output := s.output ++ text.map .byte, interruptIn := s.interruptIn.map (· - text.length) }

/-- `hostWriteText` goes on from that state (60_exceptions.md R357 (c)). -/
theorem hostWriteText_eq_textWritten {s : State} {text : List Byte} (h : NoInterruptWithin s text.length)
    (rest : State → State) : hostWriteText s text rest = rest (textWritten s text) :=
  hostWriteText_of_noInterrupt h rest

/-- The stop points of a text are taken off those without an interrupt. -/
theorem NoInterruptWithin.textWritten {s : State} {text : List Byte} {n : Nat}
    (h : NoInterruptWithin s (text.length + n)) : NoInterruptWithin (textWritten s text) n := by
  intro k hk
  obtain ⟨j, hj, rfl⟩ := Option.map_eq_some_iff.1 hk
  have hle := h j hj
  omega

/-- Fewer stop points without an interrupt. -/
theorem NoInterruptWithin.mono {s : State} {m n : Nat} (h : NoInterruptWithin s n) (hle : m ≤ n) :
    NoInterruptWithin s m :=
  fun k hk => hle.trans (h k hk)

/-- Stop points passed and then some more. -/
theorem StopPointsPassed.trans {s t u : State} {m n : Nat} (h : StopPointsPassed m s t)
    (h' : StopPointsPassed n t u) : StopPointsPassed (m + n) s u := by
  unfold StopPointsPassed at *
  rw [h', h, Option.map_map]
  exact congrArg (Option.map · s.interruptIn) (funext fun k => Nat.sub_sub k m n)

/-- With no interrupt to come none is to come after the text. -/
theorem textWritten_interruptIn_of_none {s : State} (h : s.interruptIn = none) (text : List Byte) :
    (textWritten s text).interruptIn = none := by
  rw [textWritten, h]
  rfl

/-- Output and its stop points apart, a text leaves all as it was. -/
theorem textWritten_frame (s : State) (text : List Byte) :
    SameProgramState s (textWritten s text) ∧ SameRun s (textWritten s text) ∧ SameInput s (textWritten s text) :=
  ⟨⟨fun _ => rfl, rfl, rfl, fun _ => rfl⟩, ⟨rfl, rfl⟩, ⟨rfl, rfl⟩⟩

/-- So does the flush after it, with nothing left in progress. -/
theorem flushedText_frame (s : State) (text : List Byte) :
    SameProgramState s (hostFlush (clearPending (textWritten s text))) ∧
      SameRun s (hostFlush (clearPending (textWritten s text))) ∧
      SameInput s (hostFlush (clearPending (textWritten s text))) :=
  textWritten_frame s text

/-- Two texts written are one text written. -/
theorem textWritten_append (s : State) (text more : List Byte) :
    textWritten (textWritten s text) more = textWritten s (text ++ more) := by
  cases hint : s.interruptIn <;> simp [textWritten, hint, Nat.sub_sub]

/-- A request for a byte does not see the output before it. -/
theorem hostTryRead_textWritten (s : State) (text : List Byte) :
    hostTryRead (textWritten s text) = ((hostTryRead s).1, textWritten (hostTryRead s).2 text) := by
  cases hi : s.input with
  | cons => simp [hostTryRead, textWritten, hi]
  | nil => cases ht : s.inputTail <;> simp [hostTryRead, textWritten, hi, ht]

/-- Nor does a read (20_memory.md R86). -/
theorem intercept_textWritten (s : State) (text : List Byte) (a : Word) :
    intercept (textWritten s text) a = textWritten (intercept s a) text := by
  unfold intercept
  split
  · have hpoll := hostTryRead_textWritten s text
    cases hread : (hostTryRead s).1 with
    | none =>
      rw [hread] at hpoll
      rw [pollKeyboard_none hpoll, pollKeyboard_none (Prod.ext hread rfl)]
      rfl
    | some w =>
      rw [hread] at hpoll
      rw [pollKeyboard_some hpoll, pollKeyboard_some (Prod.ext hread rfl)]
      rfl
  · rfl

/-- A byte written with a stop point after it is a text of one byte. -/
theorem stopPoint_hostWrite (s : State) (b : Byte) (rest : State → State) :
    stopPoint (hostWrite s b) rest = hostWriteText s [b] rest := by
  simp only [hostWriteText_cons, hostWriteText_nil]

/-- The rest of a service after a text matters only in states with the memory the text was begun in. -/
theorem hostWriteText_congr {s : State} (text : List Byte) {rest rest' : State → State}
    (h : ∀ t, SameMemory s t → rest t = rest' t) : hostWriteText s text rest = hostWriteText s text rest' := by
  unfold hostWriteText
  split
  · exact h _ fun _ => rfl
  · split
    · rfl
    · exact h _ fun _ => rfl

/-- Two texts in a row are one text. -/
theorem hostWriteText_append (s : State) (text more : List Byte) (rest : State → State) :
    hostWriteText s (text ++ more) rest = hostWriteText s text fun t => hostWriteText t more rest := by
  induction text generalizing s with
  | nil => rw [hostWriteText_nil, List.nil_append]
  | cons b text ih => simp only [List.cons_append, hostWriteText_cons, ih]

/-! ### The string services, word by word -/

/-- The low byte of a word is the word cut to 8 bits. -/
theorem lowByte_eq_setWidth (w : Word) : lowByte w = w.setWidth 8 := rfl

/-- A character is the low byte of its word (00_scope.md R15). -/
theorem lowByte_zext16 (c : Byte) : lowByte (zext16 c) = c := by
  rw [lowByte_eq_setWidth, zext16, BitVec.setWidth_setWidth_of_le c (by decide), BitVec.setWidth_eq]

/-- A string depends on memory only. -/
theorem StringAt.congr {s t : State} {a : Word} {n : Nat} (h : StringAt s a n) (hmem : SameMemory s t) :
    StringAt t a n := by
  simpa only [StringAt, stringWord, hmem _] using h

/-- The next string word; the address wraps (43_trap.md R288). -/
theorem add_ofNat_succ (a : Word) (k : Nat) : a + BitVec.ofNat 16 k + 1 = a + BitVec.ofNat 16 (k + 1) :=
  (BitVec.add_assoc ..).trans (congrArg (a + ·) (BitVec.ofNat_add ..).symm)

/-- The first 65536 string words have addresses of their own. -/
theorem add_ofNat_ne (a : Word) {k n : Nat} (hk : k < n) (hn : n < 65536) :
    a + BitVec.ofNat 16 k ≠ a + BitVec.ofNat 16 n := by
  intro h
  have hmod := congrArg BitVec.toNat (add_left_cancel h)
  rw [BitVec.toNat_ofNat, BitVec.toNat_ofNat] at hmod
  omega

namespace StringService

/-- The loop of the service, from a string word on. -/
def loop : StringService → Nat → Word → State → State
  | .puts => putsFrom
  | .putsp => putspFrom

/-- The bytes the service writes for a word (43_trap.md R285, R287). -/
def bytes (v : StringService) (w : Word) : List Byte :=
  match v with
  | .puts => [lowByte w]
  | .putsp => if highByte w = 0x00 then [lowByte w] else [lowByte w, highByte w]

/-- The text the service writes for the `n` words from `a` on. -/
def text (v : StringService) (s : State) (a : Word) (n : Nat) : List Byte :=
  (List.range n).flatMap fun k => v.bytes (stringWord s a k)

/-- TRAP enters the loop at the word x[0] points to (43_trap.md R285, R287). -/
theorem exec_instr (v : StringService) (unread : BitVec 4) (s : State) :
    exec (v.instr unread) s = .next (v.loop Config.memWords (readReg s .r0) s) := by
  cases v <;> rfl

/-- A zero word ends the loop (43_trap.md R285, R287). -/
theorem loop_stop (v : StringService) (fuel : Nat) {a : Word} {s : State}
    (h : memWord (intercept s a) a = 0x0000) :
    v.loop (fuel + 1) a s = hostFlush (clearPending (intercept s a)) := by
  cases v with
  | puts => exact putsFrom_stop fuel h
  | putsp => exact putspFrom_stop fuel h

/-- A nonzero word is written as a text, then the loop goes on at the next word (43_trap.md R285, R287). -/
theorem loop_more (v : StringService) (fuel : Nat) {a : Word} {s : State}
    (h : memWord (intercept s a) a ≠ 0x0000) :
    v.loop (fuel + 1) a s =
      hostWriteText (intercept s a) (v.bytes (memWord (intercept s a) a)) (v.loop fuel (a + 1)) := by
  cases v with
  | puts => exact (putsFrom_more fuel h).trans (stopPoint_hostWrite _ _ _)
  | putsp =>
    refine (putspFrom_more fuel h).trans ?_
    by_cases hhigh : highByte (memWord (intercept s a) a) = 0x00
    · simp only [bytes, writeHighByte, if_pos hhigh, stopPoint_hostWrite]
      rfl
    · simp only [bytes, writeHighByte, if_neg hhigh, stopPoint_hostWrite, ← hostWriteText_append]
      rfl

/-- The text of no word. -/
theorem text_zero (v : StringService) (s : State) (a : Word) : v.text s a 0 = [] := rfl

/-- The text of one word more. -/
theorem text_succ (v : StringService) (s : State) (a : Word) (n : Nat) :
    v.text s a (n + 1) = v.text s a n ++ v.bytes (stringWord s a n) := by
  simp [text, List.range_succ]

/-- A text depends on memory only. -/
theorem text_congr {s t : State} (h : SameMemory s t) (v : StringService) (a : Word) (n : Nat) :
    v.text t a n = v.text s a n := by
  simp only [text, stringWord, h _]

/-- The text is the statements' list of events. -/
theorem map_byte_text (v : StringService) (s : State) (a : Word) (n : Nat) :
    (v.text s a n).map .byte = v.output s a n := by
  have hword : ∀ w, (v.bytes w).map .byte = v.events w := fun w => by
    cases v with
    | puts => rfl
    | putsp => exact apply_ite (List.map OutputEvent.byte) _ _ _
  simp only [text, output, List.map_flatMap, hword]

/-- PUTS writes one byte for a word. -/
theorem length_text_puts (s : State) (a : Word) (n : Nat) : (StringService.puts.text s a n).length = n := by
  induction n with
  | zero => rfl
  | succ n ih => rw [text_succ, List.length_append, ih]; rfl

/-- The nonzero words before KBSR_ADDR are written as one text, then the loop goes on after them. -/
theorem loop_words (v : StringService) (fuel : Nat) {s : State} {a : Word} {n : Nat}
    (hword : ∀ k < n, stringWord s a k ≠ 0x0000) (hkbsr : ∀ k < n, a + BitVec.ofNat 16 k ≠ Config.kbsrAddr) :
    v.loop (n + fuel) a s = hostWriteText s (v.text s a n) (v.loop fuel (a + BitVec.ofNat 16 n)) := by
  induction n generalizing fuel with
  | zero => simp [text_zero, hostWriteText_nil]
  | succ n ih =>
    have hlast : ∀ t, SameMemory s t → v.loop (fuel + 1) (a + BitVec.ofNat 16 n) t =
        hostWriteText t (v.bytes (stringWord s a n)) (v.loop fuel (a + BitVec.ofNat 16 (n + 1))) := by
      intro t hmem
      have hread : memWord (intercept t (a + BitVec.ofNat 16 n)) (a + BitVec.ofNat 16 n) = stringWord s a n := by
        rw [intercept_of_ne (hkbsr n n.lt_succ_self)]
        exact hmem _
      rw [loop_more v fuel (hread ▸ hword n n.lt_succ_self), hread, intercept_of_ne (hkbsr n n.lt_succ_self),
        add_ofNat_succ]
    calc v.loop (n + 1 + fuel) a s
      _ = v.loop (n + (fuel + 1)) a s := by rw [Nat.add_right_comm, Nat.add_assoc]
      _ = hostWriteText s (v.text s a n) (v.loop (fuel + 1) (a + BitVec.ofNat 16 n)) :=
        ih (fuel + 1) (fun k hk => hword k (hk.trans n.lt_succ_self)) fun k hk => hkbsr k (hk.trans n.lt_succ_self)
      _ = _ := by rw [hostWriteText_congr _ hlast, ← hostWriteText_append, text_succ]

/-- A string clear of KBSR_ADDR is one text and the flush, if the loop has the fuel for its words. -/
theorem loop_string (v : StringService) (fuel : Nat) {s : State} {a : Word} {n : Nat} (h : StringAt s a n) :
    v.loop (n + (fuel + 1)) a s =
      hostWriteText s (v.text s a n) fun t => hostFlush (clearPending t) := by
  obtain ⟨-, hword, hzero, hkbsr⟩ := h
  rw [loop_words v (fuel + 1) hword fun k hk => hkbsr k hk.le]
  refine hostWriteText_congr _ fun t hmem => ?_
  have hread : memWord (intercept t (a + BitVec.ofNat 16 n)) (a + BitVec.ofNat 16 n) = 0x0000 := by
    rw [intercept_of_ne (hkbsr n le_rfl), hmem]
    exact hzero
  rw [loop_stop v fuel hread, intercept_of_ne (hkbsr n le_rfl)]

/-- From KBSR_ADDR on with a byte there: the bytes of the word 0x8000, then the string at 0xFE01 in the memory the
poll leaves (43_trap.md R288, 92_eei_decisions.md D9). -/
theorem loop_kbsr_of_hasByte (v : StringService) (fuel : Nat) {s : State} {c : Byte} {m : Nat}
    (hbyte : HasByte s c) (hstring : StringAt (intercept s Config.kbsrAddr) 0xFE01 m) :
    v.loop (m + (fuel + 1) + 1) Config.kbsrAddr s =
      hostWriteText (intercept s Config.kbsrAddr)
        (v.bytes 0x8000 ++ v.text (intercept s Config.kbsrAddr) 0xFE01 m) fun t => hostFlush (clearPending t) := by
  have hread := kbsr_poll_of_hasByte hbyte
  rw [v.loop_more _ (by rw [hread]; decide), hread, show Config.kbsrAddr + 1 = 0xFE01 by decide,
    hostWriteText_append]
  refine hostWriteText_congr _ fun t hmem => ?_
  rw [v.loop_string fuel (hstring.congr hmem), text_congr hmem]

/-- A service whose string is clear of KBSR_ADDR (43_trap.md R285, R287). -/
theorem exec_string (v : StringService) (unread : BitVec 4) {s : State} {n : Nat}
    (h : StringAt s (readReg s .r0) n) :
    exec (v.instr unread) s =
      .next (hostWriteText s (v.text s (readReg s .r0) n) fun t => hostFlush (clearPending t)) := by
  obtain ⟨fuel, hfuel⟩ : ∃ fuel, Config.memWords = n + (fuel + 1) := Nat.exists_eq_add_of_lt h.1
  rw [exec_instr, hfuel, v.loop_string fuel h]

/-- A service whose string runs into KBSR_ADDR, with no interrupt to come: the words before it are written, then
the loop is at KBSR_ADDR (43_trap.md R288). -/
theorem exec_to_kbsr (v : StringService) (unread : BitVec 4) {s : State} {n fuel : Nat}
    (hfuel : n + (fuel + 1) = 65536) (hint : s.interruptIn = none)
    (hkbsr : readReg s .r0 + BitVec.ofNat 16 n = Config.kbsrAddr)
    (hword : ∀ k < n, stringWord s (readReg s .r0) k ≠ 0x0000) :
    exec (v.instr unread) s =
      .next (v.loop (fuel + 1) Config.kbsrAddr (textWritten s (v.text s (readReg s .r0) n))) := by
  have hclear : ∀ k < n, readReg s .r0 + BitVec.ofNat 16 k ≠ Config.kbsrAddr := fun k hk => by
    rw [← hkbsr]
    exact add_ofNat_ne _ hk (by omega)
  rw [exec_instr, show Config.memWords = n + (fuel + 1) from hfuel.symm, v.loop_words (fuel + 1) hword hclear, hkbsr,
    hostWriteText_eq_textWritten (.of_none hint _)]

end StringService

/-! ### PUTS and PUTSP -/

/-- A string clear of KBSR_ADDR, no interrupt before its end: its text, the flush, and nothing else (43_trap.md
R285, R287). -/
theorem exec_string_of_noInterrupt (v : StringService) (unread : BitVec 4) {s : State} {n : Nat}
    (hstring : StringAt s (readReg s .r0) n)
    (hint : NoInterruptWithin s (v.text s (readReg s .r0) n).length) :
    ∃ t, exec (v.instr unread) s = .next t ∧
      t.output = s.output ++ v.output s (readReg s .r0) n ++ [.flush] ∧
      SameProgramState s t ∧ SameRun s t ∧ SameInput s t ∧
      StopPointsPassed (v.text s (readReg s .r0) n).length s t ∧ t.pending = none := by
  obtain ⟨hprogram, hrun, hinput⟩ := flushedText_frame s (v.text s (readReg s .r0) n)
  have hexec := v.exec_string unread hstring
  rw [hostWriteText_eq_textWritten hint] at hexec
  refine ⟨_, hexec, ?_, hprogram, hrun, hinput, rfl, rfl⟩
  rw [← v.map_byte_text]
  rfl

/-- Settles O38: PUTS passes as many stop points as its string has words. -/
theorem putsWritesTheString : Obligations.PutsWritesTheString := by
  unfold Obligations.PutsWritesTheString
  intro u s n
  refine ⟨decode_encode (i := .trapPuts u) rfl, fun hint hstring => ?_⟩
  have hlength := StringService.length_text_puts s (readReg s .r0) n
  have hputs := exec_string_of_noInterrupt .puts u hstring (by rwa [hlength])
  rwa [hlength] at hputs

/-- Settles O39: PUTSP passes as many stop points as it writes bytes. -/
theorem putspWritesThePackedString : Obligations.PutspWritesThePackedString := by
  unfold Obligations.PutspWritesThePackedString
  rintro u s n _
  refine ⟨decode_encode (i := .trapPutsp u) rfl, ?_⟩
  rintro rfl hint hstring
  have hlength : (StringService.putsp.text s (readReg s .r0) n).length =
      (StringService.putsp.output s (readReg s .r0) n).length := by
    rw [← StringService.map_byte_text, List.length_map]
  have hputsp := exec_string_of_noInterrupt .putsp u hstring (by rwa [hlength])
  rwa [hlength] at hputsp

/-- The end of a string whose words were written before and after the poll at KBSR_ADDR, with no interrupt to
come: memory is as the poll leaves it (43_trap.md R288, 92_eei_decisions.md D9). -/
theorem polledStringEnd_frame {s : State} (hint : s.interruptIn = none) (text : List Byte) :
    ∃ t, hostFlush (clearPending (textWritten (intercept s Config.kbsrAddr) text)) = t ∧
      t.output = s.output ++ text.map .byte ++ [.flush] ∧ SameMemory (intercept s Config.kbsrAddr) t ∧
      SameRegs s t ∧ t.pc = s.pc ∧ t.cond = s.cond ∧ SameRun s t ∧ AnswersTaken 1 s t ∧
      t.interruptIn = none ∧ t.pending = none := by
  have hkeeps : ReadKeeps s (intercept s Config.kbsrAddr) := (ReadKeeps.refl s).memRead Config.kbsrAddr
  have htaken := intercept_kbsr_taken s
  generalize intercept s Config.kbsrAddr = polled at hkeeps htaken ⊢
  obtain ⟨hregs, hpc, hcond, hrun, houtput, hpolled, -⟩ := hkeeps
  exact ⟨_, rfl, congrArg (· ++ text.map OutputEvent.byte ++ [OutputEvent.flush]) houtput, fun _ => rfl, hregs, hpc,
    hcond, hrun, htaken, textWritten_interruptIn_of_none (hpolled.trans hint) text, rfl⟩

/-- Settles O40: the poll leaves the word 0x0000, which is the string's end. -/
theorem stringEndsAtAnEmptyKeyboard : Obligations.StringEndsAtAnEmptyKeyboard := by
  unfold Obligations.StringEndsAtAnEmptyKeyboard
  intro v u s n hint hnone hn hkbsr hword
  obtain ⟨fuel, hfuel⟩ : ∃ fuel, n + (fuel + 1) = 65536 := ⟨65535 - n, by omega⟩
  have hexec := v.exec_to_kbsr u hfuel hint hkbsr hword
  have hnone' : NoByteYet (textWritten s (v.text s (readReg s .r0) n)) := hnone
  rw [v.loop_stop fuel (kbsr_poll_of_noByteYet hnone'), intercept_textWritten] at hexec
  obtain ⟨t, ht, houtput, hsame, hframe⟩ := polledStringEnd_frame hint (v.text s (readReg s .r0) n)
  rw [v.map_byte_text] at houtput
  have hmem : ∀ a, memWord t a = if a = 0xFE00 then 0x0000 else memWord s a :=
    fun a => (hsame a).trans (memWord_poll_of_noByteYet hnone a)
  exact ⟨t, ht ▸ hexec, houtput, (hmem 0xFE00).trans (if_pos rfl), fun a ha => (hmem a).trans (if_neg ha), hframe⟩

/-- The bytes of the word a poll leaves in KBSR (43_trap.md R285, R287). -/
theorem map_byte_bytes_kbReady (v : StringService) :
    (v.bytes 0x8000).map OutputEvent.byte = match v with
      | .puts => [.byte 0x00]
      | .putsp => [.byte 0x00, .byte 0x80] := by
  cases v <;> decide

/-- Settles O41: the poll leaves the word 0x8000, and the words from 0xFE01 on are a string clear of KBSR_ADDR. -/
theorem stringGoesOnThroughTheKeyboard : Obligations.StringGoesOnThroughTheKeyboard := by
  unfold Obligations.StringGoesOnThroughTheKeyboard
  intro v u s n m c hint hbyte hlength hkbsr hword hword' hzero
  obtain ⟨fuel, hfuel⟩ : ∃ fuel, n + (m + (fuel + 1) + 1) = 65536 := ⟨65534 - n - m, by omega⟩
  have hstring : StringAt (intercept s Config.kbsrAddr) 0xFE01 m := by
    refine ⟨by unfold Config.memWords; omega, hword', hzero, fun k hk => ?_⟩
    rw [show Config.kbsrAddr = 0xFE01 + BitVec.ofNat 16 65535 by decide]
    exact add_ofNat_ne 0xFE01 (by omega) (by decide)
  have hexec := v.exec_to_kbsr u hfuel hint hkbsr hword
  have hbyte' : HasByte (textWritten s (v.text s (readReg s .r0) n)) c := hbyte
  have hloop := v.loop_kbsr_of_hasByte fuel (m := m) hbyte' (by rw [intercept_textWritten]; exact hstring)
  have hpolled : (textWritten (intercept s Config.kbsrAddr) (v.text s (readReg s .r0) n)).interruptIn = none :=
    textWritten_interruptIn_of_none ((intercept_interruptIn s _).trans hint) _
  have hsame : SameMemory (intercept s Config.kbsrAddr)
      (textWritten (intercept s Config.kbsrAddr) (v.text s (readReg s .r0) n)) := fun _ => rfl
  rw [hloop, intercept_textWritten, StringService.text_congr hsame,
    hostWriteText_eq_textWritten (.of_none hpolled _), textWritten_append] at hexec
  obtain ⟨t, ht, houtput, hmem, hframe⟩ := polledStringEnd_frame hint (v.text s (readReg s .r0) n ++
    (v.bytes 0x8000 ++ v.text (intercept s Config.kbsrAddr) 0xFE01 m))
  rw [List.map_append, List.map_append, v.map_byte_text, v.map_byte_text, map_byte_bytes_kbReady] at houtput
  refine ⟨t, ht ▸ hexec, ?_, ?_, ?_, ?_, hframe⟩
  · have hassoc : ∀ a b c d : List OutputEvent, a ++ (b ++ (c ++ d)) = a ++ b ++ c ++ d := by
      simp only [List.append_assoc, implies_true]
    exact houtput.trans (congrArg (· ++ [OutputEvent.flush]) (hassoc _ _ _ _))
  · exact (hmem _).trans (kbsr_poll_of_hasByte hbyte)
  · exact (hmem _).trans (memWord_poll_of_hasByte hbyte 0xFE02)
  · exact fun a ha hb => (hmem a).trans
      ((memWord_poll_of_hasByte hbyte a).trans ((if_neg hb).trans (if_neg ha)))

/-! ### GETC and IN -/

/-- A request for a byte leaves all but the host's coming input (92_eei_decisions.md D10). -/
theorem hostTryRead_frame (s : State) :
    SameProgramState s (hostTryRead s).2 ∧ SameRun s (hostTryRead s).2 ∧ SameOutside s (hostTryRead s).2 := by
  obtain ⟨_, _, h⟩ := hostTryRead_snd s
  rw [h]
  exact ⟨⟨fun _ => rfl, rfl, rfl, fun _ => rfl⟩, ⟨rfl, rfl⟩, rfl, rfl, rfl⟩

/-- GETC with a word there (43_trap.md R283). -/
theorem getcRead_of_some {s : State} {w : Word} (h : (hostTryRead s).1 = some w) :
    getcRead s = deliverInput (clearPending (hostTryRead s).2) w := by
  rw [getcRead, show hostTryRead s = (some w, (hostTryRead s).2) from Prod.ext h rfl]

/-- GETC with none holds (43_trap.md R283, log 7). -/
theorem getcRead_of_none {s : State} (h : (hostTryRead s).1 = none) :
    getcRead s = leavePending (hostTryRead s).2 .getc := by
  rw [getcRead, show hostTryRead s = (none, (hostTryRead s).2) from Prod.ext h rfl]

/-- IN's read with a word there: the echo as a text of one byte, the flush, the delivery (43_trap.md R286). -/
theorem inRead_of_some {s : State} {w : Word} (h : (hostTryRead s).1 = some w) :
    inRead s = hostWriteText (clearPending (hostTryRead s).2) [lowByte w] fun t => deliverInput (hostFlush t) w := by
  rw [inRead, show hostTryRead s = (some w, (hostTryRead s).2) from Prod.ext h rfl]
  exact stopPoint_hostWrite _ _ _

/-- With none it holds (43_trap.md R286, log 7). -/
theorem inRead_of_none {s : State} (h : (hostTryRead s).1 = none) :
    inRead s = leavePending (hostTryRead s).2 .inRead := by
  rw [inRead, show hostTryRead s = (none, (hostTryRead s).2) from Prod.ext h rfl]

/-- The delivery of the word `w` by GETC or IN, from `s` to `t`: x[0], cond and what is left alone but for the host's
side (43_trap.md R283, R286). -/
def Delivered (s t : State) (w : Word) : Prop :=
  readReg t .r0 = w ∧ t.cond = condOf w ∧ SameRegsBut s t .r0 ∧ t.pc = s.pc ∧ SameMemory s t ∧ SameRun s t

/-- The end of GETC and IN delivers, if only the host's side was changed before it. -/
theorem deliverInput_delivered {s r : State} (h : SameProgramState s r) (hrun : SameRun s r) (w : Word) :
    Delivered s (deliverInput r w) w := by
  obtain ⟨hregs, hpc, -, hmem⟩ := h
  exact ⟨readReg_writeAndSetcc_self r .r0 w, writeAndSetcc_cond r .r0 w,
    fun q hq => (readReg_writeAndSetcc_of_ne hq r w).trans (hregs q), hpc, hmem, hrun⟩

/-- The condition of a character: never N (43_trap.md R283). -/
theorem condOf_zext16 (c : Byte) : condOf (zext16 c) = if c = 0x00 then .z else .p := by
  by_cases hc : c = 0x00
  · subst hc
    rfl
  · have hne : zext16 c ≠ 0x0000 := fun h => hc (BitVec.eq_of_toNat_eq (by rw [← toNat_zext16, h]; rfl))
    rw [if_neg hc, condOf_of_positive hne (getLsbD_zext16 c 15)]

/-- A delivered character, in the statements' terms. -/
theorem Delivered.of_zext16 {s t : State} {c : Byte} (h : Delivered s t (zext16 c)) :
    (readReg t .r0).toNat = c.toNat ∧ t.cond = (if c = 0x00 then .z else .p) ∧ SameRegsBut s t .r0 ∧
      t.pc = s.pc ∧ SameMemory s t ∧ SameRun s t := by
  obtain ⟨hr0, hcond, hframe⟩ := h
  exact ⟨hr0 ▸ toNat_zext16 c, hcond.trans (condOf_zext16 c), hframe⟩

/-- What was changed before it may be the host's side only. -/
theorem Delivered.of_frame {s r t : State} {w : Word} (h : Delivered r t w) (hprogram : SameProgramState s r)
    (hrun : SameRun s r) : Delivered s t w := by
  obtain ⟨hregs, hpc, -, hmem⟩ := hprogram
  obtain ⟨hr0, hcond, hregs', hpc', hmem', hrun'⟩ := h
  exact ⟨hr0, hcond, fun q hq => (hregs' q hq).trans (hregs q), hpc'.trans hpc, fun a => (hmem' a).trans (hmem a),
    hrun.trans hrun'⟩

/-- GETC with a word there (43_trap.md R283): no output, and the host's answers are as the request leaves them. -/
theorem getcRead_delivered {s : State} {w : Word} (h : (hostTryRead s).1 = some w) :
    Delivered s (getcRead s) w ∧ SameInput (hostTryRead s).2 (getcRead s) ∧ (getcRead s).output = s.output ∧
      (getcRead s).interruptIn = s.interruptIn ∧ (getcRead s).pending = none := by
  obtain ⟨hprogram, hrun, houtput, hint, -⟩ := hostTryRead_frame s
  rw [getcRead_of_some h]
  exact ⟨deliverInput_delivered (r := clearPending (hostTryRead s).2) hprogram hrun w, ⟨rfl, rfl⟩, houtput, hint, rfl⟩

/-- IN's read with a word there and no interrupt after the echo: echo, flush, delivery (43_trap.md R286). -/
theorem inRead_delivered {s : State} {w : Word} (h : (hostTryRead s).1 = some w) (hint : NoInterruptWithin s 1) :
    Delivered s (inRead s) w ∧ SameInput (hostTryRead s).2 (inRead s) ∧
      (inRead s).output = s.output ++ [.byte (lowByte w), .flush] ∧ StopPointsPassed 1 s (inRead s) ∧
      (inRead s).pending = none := by
  obtain ⟨hprogram, hrun, houtput, hsame, -⟩ := hostTryRead_frame s
  have hint' : NoInterruptWithin (clearPending (hostTryRead s).2) [lowByte w].length :=
    fun k hk => hint k (hsame.symm.trans hk)
  obtain ⟨hprogram', hrun', hinput⟩ := flushedText_frame (hostTryRead s).2 [lowByte w]
  rw [inRead_of_some h, hostWriteText_eq_textWritten hint']
  refine ⟨deliverInput_delivered (hprogram.trans hprogram') (hrun.trans hrun') w, hinput, ?_, ?_, rfl⟩
  · rw [← houtput]
    exact List.append_assoc _ _ _
  · rw [StopPointsPassed, ← hsame]
    rfl

/-- A hold: one answer of the host is used up, the service is in progress, and nothing else changes (43_trap.md R283,
R286, log 7). -/
theorem leavePending_holds (s : State) (service : Pending) :
    SameProgramState s (leavePending (hostTryRead s).2 service) ∧
      SameRun s (leavePending (hostTryRead s).2 service) ∧
      AnswersTaken 1 s (leavePending (hostTryRead s).2 service) ∧
      (leavePending (hostTryRead s).2 service).output = s.output ∧
      (leavePending (hostTryRead s).2 service).interruptIn = s.interruptIn ∧
      (leavePending (hostTryRead s).2 service).pending = some service := by
  obtain ⟨hprogram, hrun, houtput, hint, -⟩ := hostTryRead_frame s
  exact ⟨hprogram, hrun, hostTryRead_taken s, houtput, hint, rfl⟩

/-- GETC is its read (43_trap.md R283). -/
theorem exec_trapGetc (u : BitVec 4) (s : State) : exec (.trapGetc u) s = .next (getcRead s) := rfl

/-- Settles O36: GETC ends in the delivery of the byte or in the hold. -/
theorem getcDeliversTheByteOrHolds : Obligations.GetcDeliversTheByteOrHolds := by
  unfold Obligations.GetcDeliversTheByteOrHolds
  intro u s
  refine ⟨decode_encode (i := .trapGetc u) rfl, fun c hbyte => ?_, fun hnone => ?_⟩
  · have hread := congrArg Prod.fst (hostTryRead_of_hasByte hbyte)
    obtain ⟨hdelivered, ⟨hinput, htail⟩, hhost⟩ := getcRead_delivered hread
    obtain ⟨hr0, hcond, hregs, hpc, hmem, hrun⟩ := hdelivered.of_zext16
    exact ⟨_, exec_trapGetc u s, hr0, hcond, hregs, hpc, hmem, hrun,
      (hostTryRead_taken s).trans (.of_same hinput htail), hhost⟩
  · have hread := congrArg Prod.fst (hostTryRead_of_noByteYet hnone)
    exact ⟨_, (exec_trapGetc u s).trans (congrArg _ (getcRead_of_none hread)), leavePending_holds s .getc⟩

/-- IN's read comes after its prompt, if no interrupt comes before the prompt's end (43_trap.md R286). -/
theorem exec_trapIn (u : BitVec 4) {s : State} (h : NoInterruptWithin s Config.inPrompt.length) :
    exec (.trapIn u) s = .next (inRead (textWritten s Config.inPrompt)) :=
  congrArg _ (hostWriteText_eq_textWritten h inRead)

/-- IN with a word there and no interrupt before its end: the prompt, then what its read does (43_trap.md R286). -/
theorem exec_trapIn_delivered (u : BitVec 4) {s : State} {w : Word} (h : (hostTryRead s).1 = some w)
    (hint : NoInterruptWithin s (Config.inPrompt.length + 1)) :
    ∃ t, exec (.trapIn u) s = .next t ∧ Delivered s t w ∧ SameInput (hostTryRead s).2 t ∧
      t.output = s.output ++ Config.inPrompt.map .byte ++ [.byte (lowByte w), .flush] ∧
      StopPointsPassed (Config.inPrompt.length + 1) s t ∧ t.pending = none := by
  have hprompt := hostTryRead_textWritten s Config.inPrompt
  obtain ⟨hdelivered, hinput, houtput, hpassed, hpending⟩ :=
    inRead_delivered ((congrArg Prod.fst hprompt).trans h) hint.textWritten
  rw [hprompt] at hinput
  have hpassed' : StopPointsPassed Config.inPrompt.length s (textWritten s Config.inPrompt) := rfl
  obtain ⟨hprogram, hrun, -⟩ := textWritten_frame s Config.inPrompt
  obtain ⟨-, -, hinput'⟩ := textWritten_frame (hostTryRead s).2 Config.inPrompt
  exact ⟨_, exec_trapIn u (hint.mono (Nat.le_succ _)), hdelivered.of_frame hprogram hrun, hinput'.trans hinput,
    houtput, hpassed'.trans hpassed, hpending⟩

/-- Settles O43: after the prompt the host has the same answers, and IN ends in the delivery or in the hold. -/
theorem inPromptsReadsAndEchoes : Obligations.InPromptsReadsAndEchoes := by
  unfold Obligations.InPromptsReadsAndEchoes
  intro u s
  refine ⟨decode_encode (i := .trapIn u) rfl, fun c hbyte hint => ?_, fun hnone hint => ?_⟩
  · have hread := congrArg Prod.fst (hostTryRead_of_hasByte hbyte)
    obtain ⟨t, hexec, hdelivered, ⟨hinput, htail⟩, houtput, hhost⟩ := exec_trapIn_delivered u hread hint
    obtain ⟨hr0, hcond, hregs, hpc, hmem, hrun⟩ := hdelivered.of_zext16
    rw [lowByte_zext16] at houtput
    exact ⟨t, hexec, hr0, hcond, hregs, hpc, hmem, hrun, (hostTryRead_taken s).trans (.of_same hinput htail),
      houtput, hhost⟩
  · have hnone' : NoByteYet (textWritten s Config.inPrompt) := hnone
    have hread := congrArg Prod.fst (hostTryRead_of_noByteYet hnone')
    exact ⟨_, (exec_trapIn u hint).trans (congrArg _ (inRead_of_none hread)), leavePending_holds _ .inRead⟩

/-! ### The end of the input -/

/-- Settles O35: at the end of the input every request gives what P_EOF says and changes nothing. -/
theorem endOfInputFollowsTheParameter : Obligations.EndOfInputFollowsTheParameter := by
  unfold Obligations.EndOfInputFollowsTheParameter
  intro u s hinput htail
  have hrequest := hostTryRead_of_ended hinput htail
  have hpoll : SameInput s (memRead s 0xFE00).2 := by
    have hkbsr := intercept_kbsr_input s
    rwa [hrequest] at hkbsr
  cases heof : Config.endOfInput with
  | hold =>
    have hnone : inputAtEnd = none := by rw [inputAtEnd, heof]
    rw [hnone] at hrequest
    refine ⟨memWord_intercept_of_none (congrArg Prod.fst hrequest) Config.kbsrAddr, hpoll, ?_, fun hint => ?_⟩
    · rw [exec_trapGetc, getcRead_of_none (congrArg Prod.fst hrequest), hrequest]
      rfl
    · have hprompt := hostTryRead_textWritten s Config.inPrompt
      rw [hrequest] at hprompt
      rw [exec_trapIn u (.of_none hint _), inRead_of_none (congrArg Prod.fst hprompt), hprompt, textWritten, hint]
      rfl
  | deliver =>
    have hsome : inputAtEnd = some 0xFFFF := by rw [inputAtEnd, heof]
    rw [hsome] at hrequest
    have hread : (hostTryRead s).1 = some 0xFFFF := congrArg Prod.fst hrequest
    have hmem := memWord_intercept_of_some hread
    refine ⟨hmem Config.kbsrAddr, hmem 0xFE02, hpoll, ?_, fun hint => ?_⟩
    · obtain ⟨⟨hr0, hcond, hregs, hpc, hmem, hrun⟩, hsame, hhost⟩ := getcRead_delivered hread
      rw [hrequest] at hsame
      exact ⟨_, exec_trapGetc u s, hr0, hcond, hregs, hpc, hmem, hrun, hsame, hhost⟩
    · obtain ⟨t, hexec, ⟨hr0, hcond, hregs, hpc, hmem, hrun⟩, hsame, houtput, hpassed, hpending⟩ :=
        exec_trapIn_delivered u hread (.of_none hint _)
      rw [hrequest] at hsame
      have hint' : t.interruptIn = none := by rw [hpassed, hint, Option.map_none]
      exact ⟨t, hexec, hr0, hcond, hregs, hpc, hmem, hrun, hsame, houtput, hint', hpending⟩

/-! ### OUT and HALT -/

/-- Settles O37: one byte and the flush are appended. -/
theorem outWritesTheLowByte : Obligations.OutWritesTheLowByte := by
  unfold Obligations.OutWritesTheLowByte
  intro u s
  exact ⟨decode_encode (i := .trapOut u) rfl, _, rfl, List.append_assoc _ _ _,
    ⟨fun _ => rfl, rfl, rfl, fun _ => rfl⟩, ⟨rfl, rfl⟩, ⟨rfl, rfl⟩, rfl, rfl⟩

/-- Settles O44: the notice is written whole, the flush follows, and a halted machine takes no step. -/
theorem haltEndsTheRunAfterItsNotice : Obligations.HaltEndsTheRunAfterItsNotice := by
  unfold Obligations.HaltEndsTheRunAfterItsNotice
  intro u s
  refine ⟨decode_encode (i := .trapHalt u) rfl, fun hint => ?_⟩
  have hexec : exec (.trapHalt u) s = .next (haltRun (hostFlush (textWritten s Config.haltNotice)) .halt) :=
    congrArg _ (hostWriteText_eq_textWritten hint _)
  exact ⟨_, hexec, rfl, rfl, rfl, ⟨fun _ => rfl, rfl, rfl, fun _ => rfl⟩, ⟨rfl, rfl⟩, rfl, rfl,
    step_of_halted rfl⟩

/-! ### Unknown vectors and what no service does -/

/-- Settles O47: outside the six services the vector is unknown, and the fault keeps the word. -/
theorem unknownTrapsEndTheRun : Obligations.UnknownTrapsEndTheRun := by
  unfold Obligations.UnknownTrapsEndTheRun
  intro u v s hout
  have hwf : (Instr.trapUnknown u v).wellFormed = true := by
    have hnot : ¬(0x20 ≤ v.toNat ∧ v.toNat ≤ 0x25) := by omega
    simp [Instr.wellFormed, isServiceVector, hnot]
  have hword : encode (.trapUnknown u v) = 0b1111#4 ++ u ++ v := rfl
  rw [← hword]
  exact ⟨decode_encode hwf, _, rfl, rfl, rfl, ⟨fun _ => rfl, rfl, rfl, fun _ => rfl⟩, ⟨rfl, rfl⟩, rfl, rfl, rfl⟩

/-- HALT's text leaves pc and the fault record, whether an interrupt cuts it or not (43_trap.md R290). -/
theorem haltText_pc_fault (s : State) (text : List Byte) :
    (hostWriteText s text fun t => haltRun (hostFlush t) .halt).pc = s.pc ∧
      (hostWriteText s text fun t => haltRun (hostFlush t) .halt).fault = s.fault := by
  rcases hostWriteText_cases s text fun t => haltRun (hostFlush t) .halt with ⟨_, h⟩ | ⟨_, _, h⟩ <;>
  · rw [h]
    exact ⟨rfl, rfl⟩

/-- With no interrupt to come a service that keeps what a service keeps leaves run (43_trap.md R282). -/
theorem ServiceKeeps.run_of_none {s t : State} (h : ServiceKeeps s t) (hint : s.interruptIn = none) :
    t.run = s.run :=
  h.run.elim And.left fun hcut => absurd hint hcut.1

/-- Settles O45: an instruction without a destination that sets no flags writes no register and not cond; the rest
is what every service but HALT keeps. -/
theorem trapServicesLinkNothing : Obligations.TrapServicesLinkNothing := by
  unfold Obligations.TrapServicesLinkNothing
  intro u s t i hi h
  have hquiet : i ≠ .trapGetc u → i ≠ .trapIn u → SameRegs s t ∧ t.cond = s.cond := by
    intro hgetc hin
    have hnone : i.destination = none ∧ i.setsCond = false := by
      rcases hi with rfl | rfl | rfl | rfl | rfl | rfl
      exacts [absurd rfl hgetc, ⟨rfl, rfl⟩, ⟨rfl, rfl⟩, absurd rfl hin, ⟨rfl, rfl⟩, ⟨rfl, rfl⟩]
    exact ⟨fun q => exec_readReg_of_ne_destination h (by simp [hnone.1]), exec_cond_of_not_setsCond h hnone.2⟩
  by_cases hhalt : i = .trapHalt u
  · subst hhalt
    have hregs := (hquiet nofun nofun).1
    cases h
    obtain ⟨hpc, hfault⟩ := haltText_pc_fault s Config.haltNotice
    exact ⟨fun q _ => hregs q, hpc, hfault, hquiet, fun _ hne => absurd rfl hne⟩
  · have hkeeps : ServiceKeeps s t := by
      rcases hi with rfl | rfl | rfl | rfl | rfl | rfl
      · cases h; exact getcRead_keeps s
      · cases h; exact (hostWrite_keeps s _).trans ⟨rfl, id⟩ (hostFlush_keeps _)
      · cases h; exact putsFrom_keeps _ _ s
      · cases h; exact hostWriteText_keeps s _ inRead_keeps
      · cases h; exact putspFrom_keeps _ _ s
      · exact absurd rfl hhalt
    exact ⟨hkeeps.regs, hkeeps.pc, hkeeps.fault, hquiet, fun hint _ => hkeeps.run_of_none hint⟩

end Sys2Proof.Machine
end

section
/-! PROOFS. The statement of 44_illegal.md: RTI (R331) and RES (R330) take the fault IllegalOpcode, whose record
keeps the word; beyond run and the record a fault changes nothing (R332). -/

namespace Sys2Proof.Machine

/-- A fault leaves the program's state, the input and the outside as they were (44_illegal.md R332). -/
theorem raiseFault_frame (s : State) (cause : FaultCause) (word : Word) :
    SameProgramState s (raiseFault s cause word) ∧ SameInput s (raiseFault s cause word) ∧
      SameOutside s (raiseFault s cause word) :=
  ⟨⟨raiseFault_readReg s cause word, raiseFault_pc s cause word, raiseFault_cond s cause word,
    raiseFault_memWord s cause word⟩, ⟨raiseFault_input s cause word, raiseFault_inputTail s cause word⟩,
    raiseFault_output s cause word, raiseFault_interruptIn s cause word, raiseFault_pending s cause word⟩

/-- RTI takes the fault IllegalOpcode with its word (44_illegal.md R331). -/
theorem exec_rti (u : BitVec 12) (s : State) :
    exec (.rti u) s = .next (raiseFault s .illegalOpcode (0b1000#4 ++ u)) := rfl

/-- RES takes the fault IllegalOpcode with its word (44_illegal.md R330). -/
theorem exec_res (u : BitVec 12) (s : State) :
    exec (.res u) s = .next (raiseFault s .illegalOpcode (0b1101#4 ++ u)) := rfl

/-- Settles O46: each word decodes to its instruction, and that raises the fault, which has the frame of any fault. -/
theorem illegalOpcodesEndTheRun : Obligations.IllegalOpcodesEndTheRun := by
  unfold Obligations.IllegalOpcodesEndTheRun
  intro u s
  have hraise : ∀ word : Word, (raiseFault s .illegalOpcode word).run = .halted .illegalOpcode :=
    raiseFault_run s .illegalOpcode
  exact ⟨decode_encode (i := .rti u) rfl, decode_encode (i := .res u) rfl,
    ⟨_, exec_rti u s, hraise _, raiseFault_fault s _ _, raiseFault_frame s _ _⟩,
    _, exec_res u s, hraise _, raiseFault_fault s _ _, raiseFault_frame s _ _⟩

end Sys2Proof.Machine
end

section
/-! PROOFS. The statements of 60_exceptions.md: no step stops (R350), the external interrupt between steps and after
a byte of output (R356, R357), the model's stop points (R357, R358) and the held reads (R365). -/

namespace Sys2Proof.Machine

/-! ### Every step answers -/

/-- Every instruction has a meaning, and no address, register or operand makes it stop (60_exceptions.md R350). -/
theorem exec_answers (i : Instr) (s : State) : ∃ t, exec i s = .next t := by
  cases i <;> exact ⟨_, rfl⟩

/-- Settles O57, by what the step does: nothing, the interrupt, a service that goes on, or a fetch and its
instruction. -/
theorem noStepStops : Obligations.NoStepStops := by
  unfold Obligations.NoStepStops
  intro s
  cases hrun : s.run with
  | halted reason => exact ⟨_, step_of_halted hrun⟩
  | running =>
    cases hint : interruptHere s with
    | true => exact ⟨_, step_of_interruptHere hrun hint⟩
    | false =>
      cases hpending : s.pending with
      | some service => exact ⟨_, step_of_pending hrun hint hpending⟩
      | none =>
        rw [step_of_fetch hrun hint hpending]
        exact exec_answers _ _

/-! ### The stop point at a step's start -/

/-- The interrupt comes at the stop point its count has reached (log 8). -/
theorem interruptHere_of_zero {s : State} (h : s.interruptIn = some 0) : interruptHere s = true := by
  rw [interruptHere, h]
  rfl

/-- A later interrupt does not come here (log 8). -/
theorem interruptHere_of_succ {s : State} {n : Nat} (h : s.interruptIn = some (n + 1)) :
    interruptHere s = false := by
  rw [interruptHere, h]
  rfl

/-- A passed stop point brings the interrupt nearer by one (log 8). -/
theorem passStopPoint_of_succ {s : State} {n : Nat} (h : s.interruptIn = some (n + 1)) :
    passStopPoint s = { s with interruptIn := some n } := by
  rw [passStopPoint, h]
  rfl

/-- With no interrupt to come a service in progress goes on from the state as it is (log 7, 9). -/
theorem step_of_pending_of_none {s : State} {service : Pending} (hrun : s.run = .running)
    (hint : s.interruptIn = none) (hpending : s.pending = some service) :
    step s = .next (resume service s) := by
  rw [step_of_pending hrun (interruptHere_of_none hint) hpending, passStopPoint_of_none hint]

/-- Settles O49: the stop point is passed, then the step is the one without an interrupt; each service resumes where
TRAP begins it, IN after its prompt. -/
theorem stepCountsStopPointsAndGoesOn : Obligations.StepCountsStopPointsAndGoesOn := by
  unfold Obligations.StepCountsStopPointsAndGoesOn
  intro s hrun
  refine ⟨fun n hint hpending => ?_, fun n service hint hpending => ?_, fun service hint hpending => ?_, fun u =>
    ⟨fun v => ?_, exec_trapGetc u s, fun hint => ?_⟩⟩
  · rw [step_of_fetch hrun (interruptHere_of_succ hint) hpending, passStopPoint_of_succ hint]
    rfl
  · rw [step_of_pending hrun (interruptHere_of_succ hint) hpending, passStopPoint_of_succ hint]
  · exact step_of_pending_of_none hrun hint hpending
  · cases v <;> rfl
  · exact congrArg _ (hostWriteText_of_none Config.inPrompt inRead hint)

/-! ### The external interrupt -/

/-- Taking the interrupt ends the run, drops the service in progress and changes nothing else (60_exceptions.md
R356). -/
theorem takeInterrupt_frame (s : State) :
    (takeInterrupt s).run = .halted .externalInterrupt ∧ (takeInterrupt s).fault = s.fault ∧
      SameProgramState s (takeInterrupt s) ∧ SameInput s (takeInterrupt s) ∧
      (takeInterrupt s).output = s.output ∧ (takeInterrupt s).pending = none :=
  ⟨rfl, rfl, ⟨fun _ => rfl, rfl, rfl, fun _ => rfl⟩, ⟨rfl, rfl⟩, rfl, rfl⟩

/-- Settles O53: the step is the interrupt. -/
theorem interruptEndsTheRunBeforeTheNextFetch : Obligations.InterruptEndsTheRunBeforeTheNextFetch := by
  unfold Obligations.InterruptEndsTheRunBeforeTheNextFetch
  intro s hrun hint
  exact ⟨_, step_of_interruptHere hrun (interruptHere_of_zero hint), takeInterrupt_frame s⟩

/-- An interrupt inside a text: the bytes up to its stop point are written, then it is taken (60_exceptions.md R357
(c)). -/
theorem hostWriteText_eq_takeInterrupt {s : State} {text : List Byte} {k : Nat} (hint : s.interruptIn = some k)
    (hk : k < text.length) (rest : State → State) :
    hostWriteText s text rest = takeInterrupt (textWritten s (text.take (k + 1))) := by
  simp only [hostWriteText, hint, hk, if_true]
  rfl

/-- What an interrupt inside a text leaves (60_exceptions.md R356, R357 (c)). -/
theorem interruptedText_frame {s : State} {text : List Byte} {k : Nat} (hint : s.interruptIn = some k)
    (hk : k < text.length) (rest : State → State) :
    (hostWriteText s text rest).run = .halted .externalInterrupt ∧
      (hostWriteText s text rest).fault = s.fault ∧
      (hostWriteText s text rest).output = s.output ++ (text.take (k + 1)).map .byte ∧
      SameProgramState s (hostWriteText s text rest) ∧ SameInput s (hostWriteText s text rest) ∧
      (hostWriteText s text rest).pending = none := by
  obtain ⟨hprogram, ⟨-, hfault⟩, hinput⟩ := textWritten_frame s (text.take (k + 1))
  obtain ⟨hrun, hfault', hprogram', hinput', houtput, hpending⟩ :=
    takeInterrupt_frame (textWritten s (text.take (k + 1)))
  rw [hostWriteText_eq_takeInterrupt hint hk]
  exact ⟨hrun, hfault'.trans hfault, houtput, hprogram.trans hprogram', hinput.trans hinput', hpending⟩

/-- An interrupt at the echo of IN: the byte is taken and echoed, and not delivered (43_trap.md R286,
60_exceptions.md R357 (c)). -/
theorem inRead_interrupted {s : State} {c : Byte} (hbyte : HasByte s c) (hint : s.interruptIn = some 0) :
    (inRead s).run = .halted .externalInterrupt ∧ (inRead s).fault = s.fault ∧
      (inRead s).output = s.output ++ [.byte c] ∧ SameProgramState s (inRead s) ∧
      AnswersTaken 1 s (inRead s) ∧ (inRead s).pending = none := by
  obtain ⟨hprogram, ⟨-, hfault⟩, houtput, hsame, -⟩ := hostTryRead_frame s
  have hint' : (clearPending (hostTryRead s).2).interruptIn = some 0 := hsame.trans hint
  obtain ⟨hrun', hfault', houtput', hprogram', ⟨hinput', htail'⟩, hpending'⟩ :=
    interruptedText_frame (text := [lowByte (zext16 c)]) hint' Nat.one_pos
      fun t => deliverInput (hostFlush t) (zext16 c)
  rw [inRead_of_some (congrArg Prod.fst (hostTryRead_of_hasByte hbyte))]
  refine ⟨hrun', hfault'.trans hfault, ?_, hprogram.trans hprogram',
    (hostTryRead_taken s).trans (.of_same hinput' htail'), hpending'⟩
  rw [houtput', lowByte_zext16, ← houtput]
  rfl

/-- Settles O54: a string, a prompt and a notice are texts, and so is the echo of IN. -/
theorem interruptCutsOutputAfterAByte : Obligations.InterruptCutsOutputAfterAByte := by
  unfold Obligations.InterruptCutsOutputAfterAByte
  refine ⟨fun v u s n k hstring hint hk => ?_, fun s text rest k hint hk => interruptedText_frame hint hk rest,
    fun u s => ⟨rfl, rfl⟩, fun u s c hbyte hint => ?_⟩
  · rw [← v.map_byte_text, List.length_map] at hk
    rw [← v.map_byte_text, ← List.map_take]
    exact ⟨_, v.exec_string u hstring, interruptedText_frame hint hk _⟩
  · have hbyte' : HasByte (textWritten s Config.inPrompt) c := hbyte
    have hint' : (textWritten s Config.inPrompt).interruptIn = some 0 := by
      simp only [textWritten, hint, Option.map_some, Nat.sub_self]
    exact ⟨_, exec_trapIn u (.of_some hint le_rfl), inRead_interrupted hbyte' hint'⟩

/-! ### The held reads -/

/-- A held read that finds no byte holds again: one answer of the host is used up and nothing else changes
(60_exceptions.md R365, log 7). -/
theorem step_of_held {s : State} {service : Pending} (hrun : s.run = .running) (hint : s.interruptIn = none)
    (hpending : s.pending = some service) (hresume : resume service s = leavePending (hostTryRead s).2 service) :
    ∃ t, step s = .next t ∧ SameProgramState s t ∧ SameRun s t ∧ AnswersTaken 1 s t ∧ SameOutside s t := by
  obtain ⟨hprogram, hrun', htaken, houtput, hsame, hheld⟩ := leavePending_holds s service
  exact ⟨_, (step_of_pending_of_none hrun hint hpending).trans (congrArg _ hresume), hprogram, hrun', htaken,
    houtput, hsame, hheld.trans hpending.symm⟩

/-- Settles O52: the step goes on with the read, which ends in the delivery or in the hold again. -/
theorem heldReadsGoOnWithAByte : Obligations.HeldReadsGoOnWithAByte := by
  unfold Obligations.HeldReadsGoOnWithAByte
  intro s hrun hint
  refine ⟨fun c hbyte => ?_, fun hnone => ?_⟩
  · have hread := congrArg Prod.fst (hostTryRead_of_hasByte hbyte)
    refine ⟨fun hpending => ?_, fun hpending => ?_⟩
    · obtain ⟨hdelivered, ⟨hinput, htail⟩, houtput, hsame, hdone⟩ := getcRead_delivered hread
      obtain ⟨hr0, hcond, hregs, hpc, hmem, hrun'⟩ := hdelivered.of_zext16
      exact ⟨_, step_of_pending_of_none hrun hint hpending, hr0, hcond, hregs, hpc, hmem, hrun',
        (hostTryRead_taken s).trans (.of_same hinput htail), houtput, hsame.trans hint, hdone⟩
    · obtain ⟨hdelivered, ⟨hinput, htail⟩, houtput, hpassed, hdone⟩ := inRead_delivered hread (.of_none hint 1)
      obtain ⟨hr0, hcond, hregs, hpc, hmem, hrun'⟩ := hdelivered.of_zext16
      rw [lowByte_zext16] at houtput
      have hint' : (inRead s).interruptIn = none := by rw [hpassed, hint, Option.map_none]
      exact ⟨_, step_of_pending_of_none hrun hint hpending, hr0, hcond, hregs, hpc, hmem, hrun',
        (hostTryRead_taken s).trans (.of_same hinput htail), houtput, hint', hdone⟩
  · have hread := congrArg Prod.fst (hostTryRead_of_noByteYet hnone)
    rintro (hpending | hpending)
    · exact step_of_held hrun hint hpending (getcRead_of_none hread)
    · exact step_of_held hrun hint hpending (inRead_of_none hread)

end Sys2Proof.Machine
end

section
/-! PROOFS. The statements of 70_reset_and_hazards.md: the image load (R405, R406, R408 to R410), the invariant at
reset (R401, R404), and the strings that never end (R423). -/

namespace Sys2Proof.Machine

/-! ### The words of an image file -/

/-- A word is its high byte and its low byte (70_reset_and_hazards.md R405). -/
theorem highByte_append_lowByte (w : Word) : highByte w ++ lowByte w = w :=
  (bitField_append w rfl).trans (bitField_all w)

/-- The words of a big-endian image file are the words it was made from (70_reset_and_hazards.md R405). -/
theorem bigEndianWords_flatMap (ws : List Word) :
    bigEndianWords (ws.flatMap fun w => [w.extractLsb' 8 8, w.extractLsb' 0 8]) = ws := by
  induction ws with
  | nil => rfl
  | cons w ws ih => exact congrArg₂ List.cons (highByte_append_lowByte w) ih

/-- A file of fewer than 2 bytes holds no word (70_reset_and_hazards.md R408). -/
theorem bigEndianWords_of_short {file : List Byte} (h : file.length < 2) : bigEndianWords file = [] := by
  match file, h with
  | [], _ => rfl
  | [_], _ => rfl

/-- A file of 2 bytes or more holds its origin (70_reset_and_hazards.md R405). -/
theorem bigEndianWords_of_two_le {file : List Byte} (h : 2 ≤ file.length) :
    ∃ origin ws, bigEndianWords file = origin :: ws := by
  match file, h with
  | _ :: _ :: _, _ => exact ⟨_, _, rfl⟩

/-! ### The image load -/

/-- A file without a word is no image (70_reset_and_hazards.md R408). -/
theorem loadImage_of_no_word (m : Memory) {file : List Byte} (h : bigEndianWords file = []) :
    loadImage m file = .error .loadFailed := by
  rw [loadImage, h]

/-- The words after the origin are stored from it on (70_reset_and_hazards.md R405). -/
theorem loadImage_of_origin (m : Memory) {file : List Byte} {origin : Word} {ws : List Word}
    (h : bigEndianWords file = origin :: ws) : loadImage m file = .ok (storeWords m origin.toNat ws) := by
  rw [loadImage, h]

/-- One word stored, then the others from the next address on (70_reset_and_hazards.md R405). -/
theorem storeWords_cons_of_lt (m : Memory) {a : Nat} (h : a < Config.memWords) (w : Word) (ws : List Word) :
    storeWords m a (w :: ws) = storeWords (Memory.write m a w) (a + 1) ws :=
  if_pos h

/-- Past the address space nothing is stored (70_reset_and_hazards.md R406). -/
theorem storeWords_of_le (m : Memory) {a : Nat} (h : Config.memWords ≤ a) (ws : List Word) :
    storeWords m a ws = m := by
  cases ws with
  | nil => rfl
  | cons w ws => exact if_neg (Nat.not_lt.2 h)

/-- Below the first word's address memory is as before. -/
theorem read_storeWords_of_lt (m : Memory) {a b : Nat} (h : b < a) (ws : List Word) :
    Memory.read (storeWords m a ws) b = Memory.read m b := by
  induction ws generalizing m a with
  | nil => rfl
  | cons w ws ih =>
    by_cases ha : a < Config.memWords
    · rw [storeWords_cons_of_lt m ha, ih _ (by omega), read_write, if_neg (by omega)]
    · rw [storeWords_of_le m (Nat.le_of_not_lt ha)]

/-- Word number `k` is stored `k` places on, if that is inside the address space; no other word of memory from the
first one's address on changes (70_reset_and_hazards.md R405, R406). -/
theorem read_storeWords_add (m : Memory) (a k : Nat) (ws : List Word) :
    Memory.read (storeWords m a ws) (a + k) =
      if a + k < Config.memWords then ws[k]?.getD (Memory.read m (a + k)) else Memory.read m (a + k) := by
  induction ws generalizing m a k with
  | nil => simp [storeWords]
  | cons w ws ih =>
    by_cases ha : a < Config.memWords
    · rw [storeWords_cons_of_lt m ha]
      cases k with
      | zero =>
        rw [Nat.add_zero a, read_storeWords_of_lt _ (Nat.lt_add_one a), read_write, if_pos rfl, if_pos ha]
        rfl
      | succ k =>
        have hnext : a + (k + 1) = a + 1 + k := by omega
        have hother : Memory.read (Memory.write m a w) (a + 1 + k) = Memory.read m (a + 1 + k) := by
          rw [read_write, if_neg (by omega)]
        rw [hnext, ih, hother, List.getElem?_cons_succ]
    · rw [storeWords_of_le m (Nat.le_of_not_lt ha), if_neg (by omega)]

/-- Settles O11: inside the address space each word stands at its place, and a read elsewhere is as before. -/
theorem imageLoadStopsAtTheTop : Obligations.ImageLoadStopsAtTheTop := by
  unfold Obligations.ImageLoadStopsAtTheTop
  intro m origin ws
  refine ⟨_, loadImage_of_origin m (bigEndianWords_flatMap (origin :: ws)), fun k hk hfits => ?_, fun a ha => ?_⟩
  · rw [read_storeWords_add, Config.memWords, if_pos hfits, List.getElem?_eq_getElem hk, Option.getD_some]
  · rcases Nat.lt_or_ge a origin.toNat with hbelow | hle
    · exact read_storeWords_of_lt m hbelow ws
    · obtain ⟨k, rfl⟩ := Nat.exists_eq_add_of_le hle
      rw [read_storeWords_add]
      split
      · next hfits =>
        have hpast : ws.length ≤ k := by unfold Config.memWords at hfits; omega
        rw [List.getElem?_eq_none hpast, Option.getD_none]
      · rfl

/-- Settles O10: an image that fits has no word to drop. -/
theorem imageLoadRoundTrip : Obligations.ImageLoadRoundTrip := by
  unfold Obligations.ImageLoadRoundTrip
  intro m origin ws hfits
  obtain ⟨m', hload, hstored, -⟩ := imageLoadStopsAtTheTop m origin ws
  exact ⟨m', hload, fun k hk => hstored k hk (by omega)⟩

/-! ### The boot -/

/-- A first image that fails to load ends the boot (70_reset_and_hazards.md R410). -/
theorem boot_of_first_failed {m : Memory} {file : List Byte} {e : StartupError} (h : loadImage m file = .error e)
    (files : List (List Byte)) : boot m (file :: files) = .error e := by
  simp [boot, loadImages, h]

/-- A single image that loads ends in reset over its memory (70_reset_and_hazards.md R400). -/
theorem boot_of_single_loaded {m m' : Memory} {file : List Byte} (h : loadImage m file = .ok m') :
    boot m [file] = .ok (State.resetWith m') := by
  simp [boot, loadImages, h]

/-- Settles O12, by whether the file holds an origin word. -/
theorem noRunWithoutAnImage : Obligations.NoRunWithoutAnImage := by
  unfold Obligations.NoRunWithoutAnImage
  intro m file files
  refine ⟨rfl, fun hshort => ?_, fun hlong => ?_⟩
  · exact boot_of_first_failed (loadImage_of_no_word m (bigEndianWords_of_short hshort)) files
  · obtain ⟨origin, ws, hwords⟩ := bigEndianWords_of_two_le hlong
    have hload := loadImage_of_origin m hwords
    exact ⟨_, hload, boot_of_single_loaded hload⟩

/-! ### The canonical form over the image load -/

/-- Every word stored keeps it. -/
theorem wf_storeWords {m : Memory} (h : Memory.wf m = true) (a : Nat) (ws : List Word) :
    Memory.wf (storeWords m a ws) = true := by
  induction ws generalizing m a with
  | nil => exact h
  | cons w ws ih =>
    by_cases ha : a < Config.memWords
    · rw [storeWords_cons_of_lt m ha]
      exact ih (wf_write w ha h) (a + 1)
    · rw [storeWords_of_le m (Nat.le_of_not_lt ha)]
      exact h

/-- An image that loads keeps it. -/
theorem wf_loadImage {m m' : Memory} {file : List Byte} (h : Memory.wf m = true)
    (hload : loadImage m file = .ok m') : Memory.wf m' = true := by
  cases hwords : bigEndianWords file with
  | nil =>
    rw [loadImage_of_no_word m hwords] at hload
    cases hload
  | cons origin ws =>
    rw [loadImage_of_origin m hwords] at hload
    cases hload
    exact wf_storeWords h _ ws

/-- Images that load, one over the other, keep it (70_reset_and_hazards.md R407). -/
theorem wf_loadImages {m m' : Memory} {files : List (List Byte)} (h : Memory.wf m = true)
    (hload : loadImages m files = .ok m') : Memory.wf m' = true := by
  induction files generalizing m with
  | nil => cases hload; exact h
  | cons file files ih =>
    cases hfile : loadImage m file with
    | error e => simp [loadImages, hfile] at hload
    | ok m₁ =>
      rw [loadImages, hfile] at hload
      exact ih (wf_loadImage h hfile) hload

/-- Reset meets the invariant over every canonical memory (70_reset_and_hazards.md R401). -/
theorem inv_resetWith {m : Memory} (h : Memory.wf m = true) : (State.resetWith m).Inv :=
  (inv_iff_of_running rfl).2 ⟨h, rfl⟩

/-- Settles O56: a boot ends in reset over the memory its images leave. -/
theorem invariantHoldsAtReset : Obligations.InvariantHoldsAtReset := by
  unfold Obligations.InvariantHoldsAtReset
  refine ⟨inv_resetWith wf_reset, fun memInit files s hwf h => ?_⟩
  obtain ⟨m, hload, rfl⟩ := boot_eq_resetWith h
  exact inv_resetWith (wf_loadImages hwf hload)

/-! ### A string without a zero word -/

/-- From any address the string words run up to KBSR_ADDR, and from 0xFE01 back to that address: 65536 words in
all (43_trap.md R288). -/
theorem exists_words_around_kbsr (a : Word) :
    ∃ n m, n + (m + 1) = 65536 ∧ a + BitVec.ofNat 16 n = Config.kbsrAddr ∧ 0xFE01 + BitVec.ofNat 16 m = a := by
  refine ⟨(Config.kbsrAddr - a).toNat, (a - 0xFE01).toNat, ?_, ?_, ?_⟩
  · have hkbsr : Config.kbsrAddr.toNat = 65024 := rfl
    have hnext : (0xFE01 : Word).toNat = 65025 := rfl
    rw [BitVec.toNat_sub, BitVec.toNat_sub, hkbsr, hnext]
    omega
  · rw [BitVec.ofNat_toNat, BitVec.setWidth_eq, BitVec.add_comm, BitVec.sub_add_cancel]
  · rw [BitVec.ofNat_toNat, BitVec.setWidth_eq, BitVec.add_comm, BitVec.sub_add_cancel]

/-- A poll that finds a byte other than 0x00 puts no zero word into memory (20_memory.md R89). -/
theorem intercept_kbsr_ne_zero {s : State} {c : Byte} (hbyte : HasByte s c) (hc : c ≠ 0x00)
    (hmem : ∀ b, memWord s b ≠ 0x0000) (b : Word) : memWord (intercept s Config.kbsrAddr) b ≠ 0x0000 := by
  rw [memWord_poll_of_hasByte hbyte]
  split
  · intro hzero
    have hlow := congrArg lowByte hzero
    rw [lowByte_zext16] at hlow
    exact hc hlow
  · split
    · decide
    · exact hmem b

namespace StringService

/-- A service left in progress goes on with its loop (log 9). -/
theorem resume_pending (v : StringService) (a : Word) (s : State) :
    resume (v.pending a) s = v.loop Config.memWords a s := by
  cases v <;> rfl

/-- A loop out of fuel leaves the service in progress (log 9). -/
theorem loop_zero (v : StringService) (a : Word) (s : State) : v.loop 0 a s = leavePending s (v.pending a) := by
  cases v <;> rfl

/-- Each word gives at least one byte (43_trap.md R285, R287). -/
theorem one_le_length_bytes (v : StringService) (w : Word) : 1 ≤ (v.bytes w).length := by
  cases v with
  | puts => exact le_rfl
  | putsp =>
    by_cases hhigh : highByte w = 0x00
    · rw [bytes, if_pos hhigh]; exact le_rfl
    · rw [bytes, if_neg hhigh]; exact Nat.le_succ 1

/-- A text has at least as many bytes as words. -/
theorem le_length_text (v : StringService) (s : State) (a : Word) (n : Nat) : n ≤ (v.text s a n).length := by
  induction n with
  | zero => exact Nat.zero_le _
  | succ n ih =>
    rw [text_succ, List.length_append]
    exact Nat.add_le_add ih (v.one_le_length_bytes _)

/-- With no interrupt to come, nonzero words before KBSR_ADDR are written, and the loop goes on after them. -/
theorem loop_words_of_none (v : StringService) (fuel : Nat) {s : State} {a : Word} {n : Nat}
    (hint : s.interruptIn = none) (hword : ∀ b, memWord s b ≠ 0x0000)
    (hkbsr : ∀ k < n, a + BitVec.ofNat 16 k ≠ Config.kbsrAddr) :
    v.loop (n + fuel) a s = v.loop fuel (a + BitVec.ofNat 16 n) (textWritten s (v.text s a n)) :=
  (v.loop_words fuel (fun _ _ => hword _) hkbsr).trans (hostWriteText_eq_textWritten (.of_none hint _) _)

/-- With no interrupt to come and a byte for the poll, the loop at KBSR_ADDR writes the bytes of the word 0x8000 and
goes on at 0xFE01 (43_trap.md R288). -/
theorem loop_kbsr_of_none (v : StringService) (fuel : Nat) {s : State} {c : Byte} (hint : s.interruptIn = none)
    (hbyte : HasByte s c) :
    v.loop (fuel + 1) Config.kbsrAddr s =
      v.loop fuel 0xFE01 (textWritten (intercept s Config.kbsrAddr) (v.bytes 0x8000)) := by
  have hread := kbsr_poll_of_hasByte hbyte
  have hint' : (intercept s Config.kbsrAddr).interruptIn = none := (intercept_interruptIn s _).trans hint
  rw [v.loop_more fuel (by rw [hread]; decide), hread, hostWriteText_eq_textWritten (.of_none hint' _)]
  rfl

/-- The text of a string that runs through KBSR_ADDR with a byte there: `n` words before it, the word 0x8000, `m`
words after it in the memory the poll leaves (43_trap.md R288, 92_eei_decisions.md D9). -/
def textThroughKbsr (v : StringService) (s : State) (a : Word) (n m : Nat) : List Byte :=
  v.text s a n ++ v.bytes 0x8000 ++ v.text (intercept s Config.kbsrAddr) 0xFE01 m

/-- It has at least as many bytes as words. -/
theorem le_length_textThroughKbsr (v : StringService) (s : State) (a : Word) (n m : Nat) :
    n + (m + 1) ≤ (v.textThroughKbsr s a n m).length := by
  have hbefore := v.le_length_text s a n
  have hpolled := v.one_le_length_bytes 0x8000
  have hafter := v.le_length_text (intercept s Config.kbsrAddr) 0xFE01 m
  simp only [textThroughKbsr, List.length_append]
  omega

/-- Of PUTS it has one byte for a word. -/
theorem length_textThroughKbsr_puts (s : State) (a : Word) (n m : Nat) :
    (StringService.puts.textThroughKbsr s a n m).length = n + (m + 1) := by
  have hpolled : (StringService.puts.bytes 0x8000).length = 1 := rfl
  simp only [textThroughKbsr, List.length_append, length_text_puts, hpolled]
  omega

/-- The loop over a string without a zero word, no interrupt to come: the words up to KBSR_ADDR, the poll, the words
from 0xFE01 back to the first one, where the fuel is used up (70_reset_and_hazards.md R423, log 9). -/
theorem loop_through_kbsr (v : StringService) {s : State} {a : Word} {c : Byte} {n m : Nat}
    (hint : s.interruptIn = none) (hbyte : HasByte s c) (hc : c ≠ 0x00) (hmem : ∀ b, memWord s b ≠ 0x0000)
    (hfuel : n + (m + 1) = 65536) (hkbsr : a + BitVec.ofNat 16 n = Config.kbsrAddr)
    (hback : 0xFE01 + BitVec.ofNat 16 m = a) :
    v.loop Config.memWords a s =
      leavePending (textWritten (intercept s Config.kbsrAddr) (v.textThroughKbsr s a n m)) (v.pending a) := by
  have hclear : ∀ k < n, a + BitVec.ofNat 16 k ≠ Config.kbsrAddr := fun k hk => by
    rw [← hkbsr]
    exact add_ofNat_ne a hk (by omega)
  have hclear' : ∀ k < m, 0xFE01 + BitVec.ofNat 16 k ≠ Config.kbsrAddr := fun k hk => by
    rw [show Config.kbsrAddr = 0xFE01 + BitVec.ofNat 16 65535 by decide]
    exact add_ofNat_ne 0xFE01 (by omega) (by decide)
  have hbyte' : HasByte (textWritten s (v.text s a n)) c := hbyte
  have hint₁ := textWritten_interruptIn_of_none hint (v.text s a n)
  have hint₂ := textWritten_interruptIn_of_none ((intercept_interruptIn s Config.kbsrAddr).trans hint)
    (v.text s a n ++ v.bytes 0x8000)
  have hsame : SameMemory (intercept s Config.kbsrAddr)
      (textWritten (intercept s Config.kbsrAddr) (v.text s a n ++ v.bytes 0x8000)) := fun _ => rfl
  have hafter := v.loop_words_of_none 0 hint₂ (intercept_kbsr_ne_zero hbyte hc hmem) hclear'
  rw [Nat.add_zero, hback, v.loop_zero, textWritten_append, text_congr hsame] at hafter
  calc v.loop Config.memWords a s
    _ = v.loop (n + (m + 1)) a s := by rw [hfuel, Config.memWords]
    _ = v.loop (m + 1) Config.kbsrAddr (textWritten s (v.text s a n)) := by
      rw [v.loop_words_of_none _ hint hmem hclear, hkbsr]
    _ = v.loop m 0xFE01 (textWritten (intercept s Config.kbsrAddr) (v.text s a n ++ v.bytes 0x8000)) := by
      rw [v.loop_kbsr_of_none _ hint₁ hbyte', intercept_textWritten, textWritten_append]
    _ = _ := hafter

end StringService

/-- What a step leaves of a string without a zero word, in progress at `a`: bytes for 65536 words and no flush in the
output, the service in progress at `a` again, one answer of the host taken, memory still without a zero word
(70_reset_and_hazards.md R423, log 9). -/
structure StringRound (v : StringService) (a : Word) (s t : State) (bytes : List Byte) : Prop where
  pending : t.pending = some (v.pending a)
  memory : ∀ b, memWord t b ≠ 0x0000
  length : 65536 ≤ bytes.length
  length_puts : v = .puts → bytes.length = 65536
  output : t.output = s.output ++ bytes.map .byte
  taken : AnswersTaken 1 s t
  regs : SameRegs s t
  pc : t.pc = s.pc
  cond : t.cond = s.cond
  run : SameRun s t
  interrupt : t.interruptIn = none

/-- A text written around the one poll, with the service left in progress after it, leaves such a state. -/
theorem stringRound_of_text {v : StringService} {a : Word} {s : State} {text : List Byte}
    (hint : s.interruptIn = none) (hmem : ∀ b, memWord (intercept s Config.kbsrAddr) b ≠ 0x0000)
    (hlength : 65536 ≤ text.length) (hputs : v = .puts → text.length = 65536) :
    StringRound v a s (leavePending (textWritten (intercept s Config.kbsrAddr) text) (v.pending a)) text := by
  have hkeeps : ReadKeeps s (intercept s Config.kbsrAddr) := (ReadKeeps.refl s).memRead Config.kbsrAddr
  have htaken := intercept_kbsr_taken s
  generalize intercept s Config.kbsrAddr = polled at hkeeps htaken hmem ⊢
  obtain ⟨hregs, hpc, hcond, hrun, houtput, hpolled, -⟩ := hkeeps
  exact ⟨rfl, hmem, hlength, hputs, congrArg (· ++ text.map OutputEvent.byte) houtput, htaken, hregs, hpc, hcond,
    hrun, textWritten_interruptIn_of_none (hpolled.trans hint) text⟩

/-- So the loop over a string without a zero word leaves such a state, wherever the string begins. -/
theorem loop_stringRound (v : StringService) (a : Word) {s : State} {c : Byte} (hint : s.interruptIn = none)
    (hbyte : HasByte s c) (hc : c ≠ 0x00) (hmem : ∀ b, memWord s b ≠ 0x0000) :
    ∃ bytes, StringRound v a s (v.loop Config.memWords a s) bytes := by
  obtain ⟨n, m, hfuel, hkbsr, hback⟩ := exists_words_around_kbsr a
  rw [v.loop_through_kbsr hint hbyte hc hmem hfuel hkbsr hback]
  refine ⟨_, stringRound_of_text hint (intercept_kbsr_ne_zero hbyte hc hmem) ?_ ?_⟩
  · exact hfuel ▸ v.le_length_textThroughKbsr s a n m
  · rintro rfl
    exact (StringService.length_textThroughKbsr_puts s a n m).trans hfuel

/-- Under a host of nonzero bytes whose input never ends the state left is endless: one answer less is as many. -/
theorem StringRound.endless {v : StringService} {a : Word} {s t : State} {bytes : List Byte}
    (h : StringRound v a s t bytes) (hrun : s.run = .running)
    (hanswers : ∀ n, ∃ c : Byte, c ≠ 0x00 ∧ answer s n = some (.byte c)) : Endless v a t := by
  refine ⟨h.run.1.trans hrun, h.interrupt, h.pending, h.memory, fun n => ?_⟩
  rw [h.taken.1]
  exact hanswers (n + 1)

/-- Settles O42: TRAP enters the loop, and each step of the service in progress enters it again. -/
theorem endlessStringNeverEnds : Obligations.EndlessStringNeverEnds := by
  unfold Obligations.EndlessStringNeverEnds
  refine fun v s => ⟨fun u c hint hbyte hc hmem => ?_, fun a hs => ?_⟩
  · obtain ⟨bytes, h⟩ := loop_stringRound v (readReg s .r0) hint hbyte hc hmem
    exact ⟨_, bytes, v.exec_instr u s, h.pending, h.memory, h.length, h.length_puts, h.output, h.taken, h.regs, h.pc,
      h.cond, h.run, h.interrupt⟩
  · obtain ⟨hrun, hint, hpending, hmem, hanswers⟩ := hs
    obtain ⟨c, hc, hbyte⟩ := hanswers 0
    obtain ⟨bytes, h⟩ := loop_stringRound v a hint hbyte hc hmem
    have hstep := step_of_pending_of_none hrun hint hpending
    rw [v.resume_pending] at hstep
    exact ⟨_, bytes, hstep, h.endless hrun hanswers, h.length, h.length_puts, h.output, h.taken, h.regs, h.pc,
      h.cond⟩

end Sys2Proof.Machine
end

section
/-! PROOFS. The statement of 70_reset_and_hazards.md about the contents at reset: the registers (R401, the model's
choice of log 1) and the memory without an image (R404, the model's choice of log 2). -/

namespace Sys2Proof.Machine

/-- Reset gives every general register the one reset value, whatever the memory (70_reset_and_hazards.md R401). -/
theorem readReg_resetWith (m : Memory) (r : Reg) : readReg (State.resetWith m) r = Config.gprReset := by
  cases r <;> rfl

/-- Reset leaves memory as it was loaded (70_reset_and_hazards.md R400). -/
theorem memWord_resetWith (m : Memory) (a : Word) : memWord (State.resetWith m) a = Memory.read m a.toNat := rfl

/-- A memory that lists nothing reads as the unlisted word everywhere (70_reset_and_hazards.md R404). -/
theorem read_nil (a : Nat) : Memory.read [] a = Config.unlistedWord := rfl

/-- Settles O9: the registers hold their reset value, and a memory that lists nothing reads as the unlisted word; the
model's choice for both is 0x0000. -/
theorem resetRegistersAndMemoryReadZero : Obligations.ResetRegistersAndMemoryReadZero := by
  unfold Obligations.ResetRegistersAndMemoryReadZero
  exact ⟨readReg_resetWith [], fun a => (memWord_resetWith [] a).trans (read_nil a.toNat), rfl⟩

end Sys2Proof.Machine
end
